-- ==== Sys2Proof/Word.lean ====
section
/-!
DEFINITION. The two value types of the machine. It is decimal: every value is a natural number in the range the spec
states for it, and no bit-level notation applies (00_scope.md rules R6, R8, R14).
-/

namespace Sys2Proof

/-- A cell value, an accumulator value, a tray value, an instruction word: 0..999 (rule R6). -/
abbrev Word := Fin 1000

/-- A mailbox address, a PC value, an operand: 0..99 (rule R6). -/
abbrev Addr := Fin 100

end Sys2Proof
end

