-- ==== Sys2Proof/Syntax.lean ====
section
/-!
DEFINITION. The instruction set as syntax: one constructor per row of spec/opcode_table.json, the three illegal ranges
among them (30_encoding.md rules R64 and R65).
-/

namespace Sys2Proof

/-- One decoded word. An operand is the word's trailing two digits, 0..99 (rule R61). -/
inductive Instr where
  /-- HLT, words 000..099. The operand digits are ignored (rule R62); they are kept so that no word is lost. -/
  | hlt (x : Addr)
  /-- ADD, words 100..199 -/
  | add (a : Addr)
  /-- SUB, words 200..299 -/
  | sub (a : Addr)
  /-- STO (alias STA), words 300..399 -/
  | sto (a : Addr)
  /-- LDA, words 500..599 -/
  | lda (a : Addr)
  /-- BR, words 600..699 -/
  | br (a : Addr)
  /-- BRZ, words 700..799 -/
  | brz (a : Addr)
  /-- BRP, words 800..899 -/
  | brp (a : Addr)
  /-- IN (source name READ), the word 901 -/
  | inp
  /-- OUT (source name WRITE), the word 902 -/
  | out
  /-- the illegal words 400..499: opcode 4 (rule R65) -/
  | illegalFour (x : Addr)
  /-- the illegal word 900: opcode 9 with operand 00 (rule R65) -/
  | illegalNineZero
  /-- the illegal words 903..999: opcode 9 with an operand x in 03..99 (rule R65) -/
  | illegalNineOther (x : Addr)
deriving DecidableEq, Repr

end Sys2Proof
end

