-- ==== Sys2Proof/WellFormed.lean ====
section
/-!
DEFINITION. Which terms of `Instr` stand for a word. Every operand is in 0..99 by its type; the one further check is the
operand range of the illegal row 903..999.
-/

namespace Sys2Proof

/-- `Instr` as the opcode table has it: the row "9 with operand 03..99" takes no operand below 03, since 900, 901 and 902
are rows of their own (30_encoding.md rule R64). -/
def Instr.wellFormed : Instr → Bool
  | .illegalNineOther x => decide (3 ≤ x.val)
  | .hlt _ => true
  | .add _ => true
  | .sub _ => true
  | .sto _ => true
  | .lda _ => true
  | .br _ => true
  | .brz _ => true
  | .brp _ => true
  | .inp => true
  | .out => true
  | .illegalFour _ => true
  | .illegalNineZero => true

end Sys2Proof
end

