-- ==== Sys2Proof/Decode.lean ====
section
/-!
DEFINITION. Decode and encode (30_encoding.md rules R60 to R68, 40_cycle.md rules R103 to R105). Decode is total on the
words 0..999 and depends on the word alone (rules R67, R68); a number that is no word is rejected by name.
-/

namespace Sys2Proof

/-- Decimal digits `hi` down to `lo` of a word (00_scope.md rule R9): `v[hi:lo]`. -/
def digits (v : Word) (hi lo : Nat) : Nat :=
  v.val / 10 ^ lo % 10 ^ (hi - lo + 1)

/-- `opcode <- IR[2:2]`, the leading digit (rules R61, R103). -/
def opcodeOf (w : Word) : Nat :=
  digits w 2 2

/-- `operand <- IR[1:0]`, the trailing two digits (rules R61, R103). -/
def operandOf (w : Word) : Addr :=
  ⟨digits w 1 0, Nat.mod_lt _ (by decide)⟩

/-- Opcode 9: the operand selects the sub-operation, 01 READ and 02 WRITE; any other value is a decode error
(rule R104). -/
def decodeNine (x : Addr) : Instr :=
  if x.val = 0 then .illegalNineZero
  else if x.val = 1 then .inp
  else if x.val = 2 then .out
  else .illegalNineOther x

/-- The full decode of a word (rule R64). The leading digit is at most 9, so the last arm is opcode 9. -/
def decode (w : Word) : Instr :=
  let x := operandOf w
  match opcodeOf w with
  | 0 => .hlt x
  | 1 => .add x
  | 2 => .sub x
  | 3 => .sto x
  | 4 => .illegalFour x
  | 5 => .lda x
  | 6 => .br x
  | 7 => .brz x
  | 8 => .brp x
  | _ => decodeNine x

/-- Why a number is not decoded. -/
inductive DecodeReject where
  /-- The number is no 3-digit word: a cell holds 0..999 only (20_memory.md rule R40). Safe: the engine never holds
  such a number. -/
  | notAWord (n : Nat)
deriving DecidableEq, Repr

/-- A number as a word, or rejected by name (rule R40). -/
def wordOfNumber (n : Nat) : Except DecodeReject Word :=
  if h : n < 1000 then .ok ⟨n, h⟩ else .error (.notAWord n)

/-- Decode any number: the word it is, or rejected by name. -/
def decodeNumber (n : Nat) : Except DecodeReject Instr :=
  match wordOfNumber n with
  | .ok w => .ok (decode w)
  | .error r => .error r

/-- The instruction read from an instruction whose number is `w` (the opcode table's radix is 10: a row's words are the
numbers of its value range, so the cell that holds the instruction holds `w`). Every instruction is one cell
(rule R60), so the number of bits says nothing further (log entry 18). -/
def decodeTableWord (_nbits w : Nat) : Option Instr :=
  match decodeNumber w with
  | .ok i => some i
  | .error _ => none

/-- `opcode * 100 + operand` (rule R61), for an opcode digit and an operand. -/
def wordOf (opcode : Fin 10) (x : Addr) : Word :=
  ⟨opcode.val * 100 + x.val, by omega⟩

/-- The word of an instruction, from the opcode table's encodings (rules R61, R64). -/
def encode : Instr → Word
  | .hlt x => wordOf 0 x
  | .add a => wordOf 1 a
  | .sub a => wordOf 2 a
  | .sto a => wordOf 3 a
  | .illegalFour x => wordOf 4 x
  | .lda a => wordOf 5 a
  | .br a => wordOf 6 a
  | .brz a => wordOf 7 a
  | .brp a => wordOf 8 a
  | .illegalNineZero => wordOf 9 0
  | .inp => wordOf 9 1
  | .out => wordOf 9 2
  | .illegalNineOther x => wordOf 9 x

/-- Whether a decoded word is one of the 198 illegal words (rule R65). -/
def Instr.illegal : Instr → Bool
  | .illegalFour _ => true
  | .illegalNineZero => true
  | .illegalNineOther _ => true
  | .hlt _ => false
  | .add _ => false
  | .sub _ => false
  | .sto _ => false
  | .lda _ => false
  | .br _ => false
  | .brz _ => false
  | .brp _ => false
  | .inp => false
  | .out => false

end Sys2Proof
end

