-- ==== Sys2Proof/Config.lean ====
section
/-!
DEFINITION. The named parameters of 00_scope.md rule R7, as plain data that the machine carries unchanged in
`State.params`. A statement about every state is therefore a statement about every value of every parameter.
-/

namespace Sys2Proof

/-- The two readings of BRP's trigger (44_branch.md rule R133, conflict C3, decision D1). -/
inductive BrpPolarity where
  /-- BRP branches when NEG is false: the table of the source's §4.1, the spec's default. -/
  | nonNegative
  /-- BRP branches when NEG is true: the reading the source's open question records. -/
  | negativeSet
deriving DecidableEq, Repr

/-- How a 0..999 value is carried on wires: an OPEN parameter that no program can observe (20_memory.md rule R42,
decision D6). Nothing in the model reads it. -/
inductive CellEncoding where
  | binary
  | bcd
  | other (id : Nat)
deriving DecidableEq, Repr

/-- The parameters of rule R7, less `max_cycles`, which the host gives on each run. -/
structure Params where
  /-- `brp_polarity` -/
  brpPolarity : BrpPolarity
  /-- `acc_reset`: ACC at reset -/
  accReset : Word
  /-- `neg_reset`: NEG at reset -/
  negReset : Bool
  /-- `cell_encoding` -/
  cellEncoding : CellEncoding
  /-- `in_capacity`: `none` is unbounded -/
  inCapacity : Option Nat
  /-- `out_capacity`: `none` is unbounded -/
  outCapacity : Option Nat
deriving DecidableEq, Repr

/-- The spec's default values (rule R7, decisions D1, D2, D3, D11, D12; log entries 1, 2, 12). `cell_encoding` is OPEN
in the spec: `binary` is the model's DESIGN CHOICE (log entry 11), which nothing reads. -/
def Params.default : Params where
  brpPolarity := .nonNegative
  accReset := 0
  negReset := false
  cellEncoding := .binary
  inCapacity := none
  outCapacity := none

/-- A capacity admits a count when it is unbounded or at least that count (rule R7). -/
def capacityAdmits (capacity : Option Nat) (count : Nat) : Bool :=
  match capacity with
  | none => true
  | some c => decide (count ≤ c)

end Sys2Proof
end

