-- ==== Sys2Proof/Machine/State.lean ====
section
/-!
DEFINITION. The engine state (10_state.md), the reasons a step can stop, and the state after reset. Everything is plain
data.
-/

namespace Sys2Proof.Machine

/-- One listed mailbox: its address and its value (20_memory.md rules R40, R41: the unit of every access is one whole
cell, so the pair holds a cell value and not a byte; log entry 6). -/
abbrev Mailbox := Addr × Word

/-- The mailbox memory as the list of the cells that do not hold 000, addresses strictly rising (rule R40). -/
abbrev Memory := List Mailbox

/-- What a mailbox that the list does not name reads as: "Unassigned mailboxes ... default to `000`" (30_encoding.md
rule R81, 20_memory.md rule R45; log entry 4). -/
def unlisted : Word := 0

/-- The canonical form: addresses strictly rising, and no entry equal to what an unlisted mailbox reads as. -/
abbrev Memory.wf (m : Memory) : Prop :=
  m.Pairwise (fun x y => x.1 < y.1) ∧ unlisted ∉ m.map Prod.snd

/-- The runtime fault kinds (60_exceptions.md rules R140, R143). -/
inductive FaultKind where
  /-- an illegal word was fetched (rule R141) -/
  | invalidOpcode
  /-- IN with the input tray empty (rule R142) -/
  | inputTrayUnderflow
  /-- in the source's list, raised nowhere (rule R143, conflict C6; log entry 16) -/
  | addressOutOfRange
deriving DecidableEq, Repr

/-- The fault record `{ kind, cycle, mailbox }` (10_state.md rule R27). -/
structure FaultRecord where
  /-- the fault kind -/
  kind : FaultKind
  /-- the 1-based number of the step that faulted, in the current run (40_cycle.md rule R113) -/
  cycle : Nat
  /-- the address of the instruction that faulted (rules R27, R101) -/
  mailbox : Addr
deriving DecidableEq, Repr

/-- The engine state. -/
structure State where
  /-- the named parameters of 00_scope.md rule R7; no step changes them -/
  params : Params
  /-- the mailbox memory (rule R30) -/
  mem : Memory
  /-- PC (rule R24) -/
  pc : Addr
  /-- IR (rule R25) -/
  ir : Word
  /-- the fetch address `a` of the current step, kept for a fault record (40_cycle.md rule R101) -/
  fetchAddr : Addr
  /-- ACC (rules R20, R21) -/
  acc : Word
  /-- NEG (rules R22, R23) -/
  neg : Bool
  /-- HALTED (rule R26) -/
  halted : Bool
  /-- FAULT (rule R27) -/
  fault : Option FaultRecord
  /-- the input tray, front first (rule R28) -/
  inTray : List Word
  /-- the output tray, oldest first (rule R29) -/
  outTray : List Word
  /-- CYCLES, the run controller's counter (rule R32) -/
  cycles : Nat
deriving DecidableEq, Repr

/-- Why a step does not happen. The engine's own runtime errors are not here: they are next states with FAULT written
(60_exceptions.md rule R146; log entry 7). -/
inductive Fault where
  /-- A step applied to a halted engine: none is enabled (40_cycle.md rule R106, decision D8). Raised by
  `engineStep` alone. Safe: the model stops. -/
  | engineHalted
  /-- A step applied to a faulted engine: none is enabled (rule R106). Raised by `engineStep` alone, with the recorded
  fault. Safe: the model stops. -/
  | engineFaulted (r : FaultRecord)
deriving DecidableEq, Repr

/-- Why an instruction has no meaning. Every instruction has one, so no arm answers this. -/
inductive Refusal where
  /-- an instruction not modelled, by its mnemonic; raised by no arm of `exec`. Safe. -/
  | notModelled (mnemonic : String)
deriving DecidableEq, Repr

/-- The three outcomes over this state. -/
abbrev StepOutcome := Host.Outcome State Fault Refusal

/-- A fresh engine over a loaded memory and the preloaded inputs (10_state.md rule R33, 70_reset_and_hazards.md rules
R160 to R162). IR and the fetch address have no reset value in the spec: 0 is a DESIGN CHOICE (log entry 3). -/
def State.fresh (p : Params) (image : Memory) (inputs : List Word) : State where
  params := p
  mem := image
  pc := 0
  ir := 0
  fetchAddr := 0
  acc := p.accReset
  neg := p.negReset
  halted := false
  fault := none
  inTray := inputs
  outTray := []
  cycles := 0

/-- The engine right after reset, with no program loaded and no input given: every mailbox holds 000, under the default
parameters (log entries 4 and 5). -/
def State.reset : State :=
  State.fresh Params.default [] []

end Sys2Proof.Machine
end

