-- ==== Sys2Proof/Machine/Ops.lean ====
section
/-!
DEFINITION. The named operations over memory, registers and trays, the fetch, and the raising of a fault, which every
meaning is built from (00_scope.md rules R10 to R13).
-/

namespace Sys2Proof.Machine

/-- `MemRead(a, 1)` (rule R11): the value of the mailbox at `a`. -/
def Memory.read (m : Memory) (a : Addr) : Word :=
  match m with
  | [] => unlisted
  | (b, v) :: rest => if b = a then v else Memory.read rest a

/-- Put a listed mailbox in its place among rising addresses. -/
def Memory.insert (a : Addr) (v : Word) (m : Memory) : Memory :=
  match m with
  | [] => [(a, v)]
  | (b, w) :: rest => if a < b then (a, v) :: (b, w) :: rest else (b, w) :: Memory.insert a v rest

/-- The list without the mailbox at `a`, which then reads as unlisted. -/
def Memory.remove (a : Addr) (m : Memory) : Memory :=
  m.filter (fun c => decide (c.1 ≠ a))

/-- `MemWrite(a, 1, v)` (rule R11): the mailbox at `a` holds `v`, every other mailbox as before (20_memory.md rule
R47). -/
def Memory.write (m : Memory) (a : Addr) (v : Word) : Memory :=
  if v = unlisted then Memory.remove a m else Memory.insert a v (Memory.remove a m)

/-- A number reduced into 0..999, as the spec's `mod 1000` (rule R8). -/
def wordMod (n : Nat) : Word :=
  ⟨n % 1000, Nat.mod_lt _ (by decide)⟩

/-- An integer reduced into 0..999; the identity on an integer already in range. -/
def wordOfInt (z : Int) : Word :=
  wordMod (z % 1000).toNat

/-- `(a + 1) mod 100` (40_cycle.md rule R101): a fetch from 99 leaves PC = 0. -/
def nextAddr (a : Addr) : Addr :=
  ⟨(a.val + 1) % 100, Nat.mod_lt _ (by decide)⟩

/-- `ACC <- v` -/
def State.setAcc (s : State) (v : Word) : State := { s with acc := v }

/-- `NEG <- b` -/
def State.setNeg (s : State) (b : Bool) : State := { s with neg := b }

/-- `PC <- target` (rule R10) -/
def State.setPc (s : State) (target : Addr) : State := { s with pc := target }

/-- `HALTED <- true` (41_halt.md rule R115) -/
def State.halt (s : State) : State := { s with halted := true }

/-- The mailbox at `a` of a state. -/
def State.readCell (s : State) (a : Addr) : Word := s.mem.read a

/-- `MemWrite(a, 1, v)` on a state. -/
def State.writeCell (s : State) (a : Addr) (v : Word) : State := { s with mem := s.mem.write a v }

/-- The input tray replaced: what is left of it after a pop. -/
def State.setInTray (s : State) (vs : List Word) : State := { s with inTray := vs }

/-- `OutPush(v)` (rule R12, 20_memory.md rule R55): append at the end; it never fails and never waits. -/
def State.outPush (s : State) (v : Word) : State := { s with outTray := s.outTray ++ [v] }

/-- `InEmpty()` and `InPop()` in one (rule R12, 20_memory.md rule R54): `none` when the tray is empty, else the front
value and the state without it. -/
def State.inPop (s : State) : Option (Word × State) :=
  match s.inTray with
  | [] => none
  | v :: rest => some (v, s.setInTray rest)

/-- `raise <kind>` (rule R13, 40_cycle.md rule R113, 60_exceptions.md rule R146): FAULT records the kind, the number of
this step in the current run and the fetch address; nothing else happens. The engine is then in the terminal faulted
state; there is no return from it (rule R147). -/
def State.raise (s : State) (kind : FaultKind) : State :=
  { s with fault := some { kind := kind, cycle := s.cycles + 1, mailbox := s.fetchAddr } }

/-- Fetch (40_cycle.md rule R101): `a <- PC; IR <- MemRead(a, 1); PC <- (a + 1) mod 100`. -/
def State.fetch (s : State) : State :=
  { s with fetchAddr := s.pc, ir := s.mem.read s.pc, pc := nextAddr s.pc }

/-- One more completed step: CYCLES counts it (10_state.md rule R32). -/
def State.countCycle (s : State) : State := { s with cycles := s.cycles + 1 }

/-- The end of a step: it is counted unless it faulted (40_cycle.md rules R107 and R113). -/
def State.completeStep (s : State) : State :=
  match s.fault with
  | none => s.countCycle
  | some _ => s

/-- `CYCLES <- 0` at the start of a run (rule R107). -/
def State.startRun (s : State) : State := { s with cycles := 0 }

/-- A step is enabled when HALTED is false and FAULT is none (40_cycle.md rule R106). -/
def State.enabled (s : State) : Bool :=
  s.fault.isNone && !s.halted

/-- The instruction the host asks to run next, in the mailbox the next fetch reads, with a step enabled (log entry 18).
A number that is no word is stored nowhere. -/
def State.placeFetchWord (s : State) (w : Nat) : State :=
  match wordOfNumber w with
  | .ok v => { s with mem := s.mem.write s.pc v, halted := false, fault := none }
  | .error _ => s

end Sys2Proof.Machine
end

