-- ==== Sys2Proof/Machine/Flags.lean ====
section
/-!
DEFINITION. The arithmetic unit's two results, the one flag NEG, and the two branch conditions (42_arithmetic.md,
44_branch.md). No other flag exists (10_state.md rule R23).
-/

namespace Sys2Proof.Machine

/-- `(ACC + m) mod 1000` (rule R118). The wrap sets no flag (rule R119). -/
def sumWord (acc m : Word) : Word :=
  wordMod (acc.val + m.val)

/-- `raw <- ACC - m`, an exact integer in -999..999 (rule R120). -/
def rawDifference (acc m : Word) : Int :=
  (acc.val : Int) - (m.val : Int)

/-- NEG after SUB: `raw < 0` (rules R22, R120). -/
def borrowFlag (acc m : Word) : Bool :=
  decide (rawDifference acc m < 0)

/-- ACC after SUB: `(raw + 1000) mod 1000` when raw is negative, else `raw` (rule R120). -/
def differenceWord (acc m : Word) : Word :=
  if rawDifference acc m < 0 then wordOfInt (rawDifference acc m + 1000) else wordOfInt (rawDifference acc m)

/-- BRZ's condition: `ACC = 0` (rule R131). -/
def zeroCondition (acc : Word) : Bool :=
  decide (acc = 0)

/-- BRP's condition under the parameter `brp_polarity` (rules R132, R133). -/
def brpCondition (polarity : BrpPolarity) (neg : Bool) : Bool :=
  match polarity with
  | .nonNegative => !neg
  | .negativeSet => neg

end Sys2Proof.Machine
end

