-- ==== Sys2Proof/Machine/Operands.lean ====
section
/-!
DEFINITION. The operand forms. There is one addressing mode, direct: the operand is the address itself, with no
immediate, indirect, indexed or relative form, no scaling and no extension (30_encoding.md rules R62 and R63).
-/

namespace Sys2Proof.Machine

/-- The effective address of a data operand or the target of a branch: the operand (rule R63, 44_branch.md rule R129). -/
def effectiveAddr (operand : Addr) : Addr := operand

/-- `m <- MemRead(operand, 1)`: the direct source operand of ADD, SUB and LDA (20_memory.md rule R46). -/
def State.readOperand (s : State) (operand : Addr) : Word :=
  s.readCell (effectiveAddr operand)

/-- `MemWrite(operand, 1, v)`: the direct destination operand of STO (rule R46). -/
def State.writeOperand (s : State) (operand : Addr) (v : Word) : State :=
  s.writeCell (effectiveAddr operand) v

/-- A branch: PC is overwritten with the target when the branch is taken, and keeps the fetch's advance when it is not
(rule R129, 40_cycle.md rule R102). -/
def State.branchIf (s : State) (taken : Bool) (operand : Addr) : State :=
  s.setPc (if taken then effectiveAddr operand else s.pc)

end Sys2Proof.Machine
end

