-- ==== Sys2Proof/Machine/Arithmetic.lean ====
section
/-!
DEFINITION. The arithmetic family: ADD and SUB (42_arithmetic.md). Neither writes memory (20_memory.md rule R48,
conflict C1).
-/

namespace Sys2Proof.Machine

/-- ADD (rule R118): `ACC <- (ACC + m) mod 1000`; NEG is left unchanged. -/
def execAdd (a : Addr) (s : State) : StepOutcome :=
  .next (s.setAcc (sumWord s.acc (s.readOperand a)))

/-- SUB (rule R120): NEG records the borrow, always; ACC is the difference brought into 0..999. -/
def execSub (a : Addr) (s : State) : StepOutcome :=
  let m := s.readOperand a
  .next ((s.setNeg (borrowFlag s.acc m)).setAcc (differenceWord s.acc m))

end Sys2Proof.Machine
end

