-- ==== Sys2Proof/Machine/Branch.lean ====
section
/-!
DEFINITION. The branch family: BR, BRZ and BRP (44_branch.md). A branch writes PC and nothing else (rule R129).
-/

namespace Sys2Proof.Machine

/-- BR (rule R130): `PC <- operand`. -/
def execBr (a : Addr) (s : State) : StepOutcome :=
  .next (s.branchIf true a)

/-- BRZ (rule R131): `if ACC = 0: PC <- operand`. It tests ACC only, not NEG. -/
def execBrz (a : Addr) (s : State) : StepOutcome :=
  .next (s.branchIf (zeroCondition s.acc) a)

/-- BRP (rules R132, R133): the condition reads NEG only, by the parameter `brp_polarity`. -/
def execBrp (a : Addr) (s : State) : StepOutcome :=
  .next (s.branchIf (brpCondition s.params.brpPolarity s.neg) a)

end Sys2Proof.Machine
end

