-- ==== Sys2Proof/Machine/Halt.lean ====
section
/-!
DEFINITION. The halt family: HLT (41_halt.md).
-/

namespace Sys2Proof.Machine

/-- HLT (rule R115): `HALTED <- true`. The operand digits are not read (rule R116). -/
def execHlt (_x : Addr) (s : State) : StepOutcome :=
  .next s.halt

end Sys2Proof.Machine
end

