-- ==== Sys2Proof/Machine/Illegal.lean ====
section
/-!
DEFINITION. The illegal words: fetching one raises `InvalidOpcode` (30_encoding.md rule R65, 60_exceptions.md rule R141).
No port is touched (45_io.md rule R138).
-/

namespace Sys2Proof.Machine

/-- Opcode 4, words 400..499: rejected, "not silently treated as a no-op" (rule R65). -/
def execIllegalFour (_x : Addr) (s : State) : StepOutcome :=
  .next (s.raise .invalidOpcode)

/-- The word 900: opcode 9 with operand 00 (rule R138). -/
def execIllegalNineZero (s : State) : StepOutcome :=
  .next (s.raise .invalidOpcode)

/-- The words 903..999: opcode 9 with an operand in 03..99 (rule R138). -/
def execIllegalNineOther (_x : Addr) (s : State) : StepOutcome :=
  .next (s.raise .invalidOpcode)

end Sys2Proof.Machine
end

