-- ==== Sys2Proof/Machine/InOut.lean ====
section
/-!
DEFINITION. The input and output family: IN and OUT (45_io.md).
-/

namespace Sys2Proof.Machine

/-- IN (rules R135, R136): the front value of the input tray goes to ACC; on an empty tray the step raises
`InputTrayUnderflow` and ACC is not written. -/
def execInp (s : State) : StepOutcome :=
  match s.inPop with
  | some (v, s') => .next (s'.setAcc v)
  | none => .next (s.raise .inputTrayUnderflow)

/-- OUT (rule R137): `OutPush(ACC)`. -/
def execOut (s : State) : StepOutcome :=
  .next (s.outPush s.acc)

end Sys2Proof.Machine
end

