-- ==== Sys2Proof/Machine/Transfer.lean ====
section
/-!
DEFINITION. The transfer family: STO and LDA (43_transfer.md). Each moves one whole cell.
-/

namespace Sys2Proof.Machine

/-- STO (rule R125): `MemWrite(operand, 1, ACC)`; ACC is unchanged. -/
def execSto (a : Addr) (s : State) : StepOutcome :=
  .next (s.writeOperand a s.acc)

/-- LDA (rule R127): `ACC <- MemRead(operand, 1)`; memory and NEG are unchanged. -/
def execLda (a : Addr) (s : State) : StepOutcome :=
  .next (s.setAcc (s.readOperand a))

end Sys2Proof.Machine
end

