-- ==== Sys2Proof/Machine/Dispatch.lean ====
section
/-!
DEFINITION. The dispatch of 40_cycle.md rule R105: one arm per constructor of `Instr`. The state an arm is given is the
state after the fetch.
-/

namespace Sys2Proof.Machine

def exec (i : Instr) (s : State) : Host.Outcome State Fault Refusal :=
  match i with
  | .hlt x => Sys2Proof.Machine.execHlt x s
  | .add a => Sys2Proof.Machine.execAdd a s
  | .sub a => Sys2Proof.Machine.execSub a s
  | .sto a => Sys2Proof.Machine.execSto a s
  | .lda a => Sys2Proof.Machine.execLda a s
  | .br a => Sys2Proof.Machine.execBr a s
  | .brz a => Sys2Proof.Machine.execBrz a s
  | .brp a => Sys2Proof.Machine.execBrp a s
  | .inp => Sys2Proof.Machine.execInp s
  | .out => Sys2Proof.Machine.execOut s
  | .illegalFour x => Sys2Proof.Machine.execIllegalFour x s
  | .illegalNineZero => Sys2Proof.Machine.execIllegalNineZero s
  | .illegalNineOther x => Sys2Proof.Machine.execIllegalNineOther x s

end Sys2Proof.Machine
end

