-- ==== Sys2Proof/Machine/Cycle.lean ====
section
/-!
DEFINITION. One step of the engine (40_cycle.md rules R100 to R106): the enabling condition, fetch, decode, dispatch, and
the counting of a completed step. `Step.lean` gives it the fixed name.
-/

namespace Sys2Proof.Machine

/-- Fetch, decode and execute, then count the step unless it faulted (rules R101 to R107). -/
def fetchExecute (s : State) : StepOutcome :=
  match exec (decode s.fetch.ir) s.fetch with
  | .next t => .next t.completeStep
  | .fault r => .fault r
  | .refused r => .refused r

/-- One step: none is enabled on a faulted or a halted engine (rule R106), FAULT tested first (60_exceptions.md rule
R145). -/
def engineStep (s : State) : StepOutcome :=
  match s.fault with
  | some r => .fault (.engineFaulted r)
  | none => if s.halted then .fault .engineHalted else fetchExecute s

end Sys2Proof.Machine
end

