-- ==== Sys2Proof/Machine/Step.lean ====
section
/-!
DEFINITION. The step under its fixed name, and the state whose next step runs a given instruction.
-/

namespace Sys2Proof.Machine

/-- One step of the machine (40_cycle.md rule R100). -/
def step (s : State) : Host.Outcome State Fault Refusal :=
  engineStep s

/-- `s` with the instruction of number `w` in the mailbox that the next step fetches (log entry 18). -/
def State.withFetchWord (s : State) (_nbits w : Nat) : State :=
  s.placeFetchWord w

end Sys2Proof.Machine
end

