-- ==== Sys2Proof/Machine/Assembler.lean ====
section
/-!
DEFINITION. The two-pass assembler, the golden model of the encoding (30_encoding.md rules R70 to R90). It is software
beside the engine and shares with it only the shape of the program image (rule R70).
-/

namespace Sys2Proof.Machine

/-- A token, or a line, as its characters. -/
abbrev Token := List Char

/-- The mnemonics, aliases and the data directive (rule R73). -/
inductive Mnemonic where
  | hlt | cob | lda | sto | sta | add | sub | br | brz | brp | inp | out | dat
deriving DecidableEq, Repr

/-- The assembly error kinds (rule R84). -/
inductive AssemblyErrorKind where
  | duplicateLabel
  | undefinedLabel
  | operandOutOfRange
  | unknownMnemonic
  | programTooLarge
  /-- the spec's own kind for structural errors (rule R83, decision D20) -/
  | malformedLine
deriving DecidableEq, Repr

/-- An assembly error `{ kind, line }` (rule R70); the line is 1-based and counts every line (rule R86). -/
structure AssemblyError where
  kind : AssemblyErrorKind
  line : Nat
deriving DecidableEq, Repr

/-- "matched case-sensitively as written" (rule R73). -/
def mnemonicOf (t : Token) : Option Mnemonic :=
  if t = ['H', 'L', 'T'] then some .hlt
  else if t = ['C', 'O', 'B'] then some .cob
  else if t = ['L', 'D', 'A'] then some .lda
  else if t = ['S', 'T', 'O'] then some .sto
  else if t = ['S', 'T', 'A'] then some .sta
  else if t = ['A', 'D', 'D'] then some .add
  else if t = ['S', 'U', 'B'] then some .sub
  else if t = ['B', 'R'] then some .br
  else if t = ['B', 'R', 'Z'] then some .brz
  else if t = ['B', 'R', 'P'] then some .brp
  else if t = ['I', 'N'] then some .inp
  else if t = ['O', 'U', 'T'] then some .out
  else if t = ['D', 'A', 'T'] then some .dat
  else none

/-- The class of a mnemonic and its word (rule R73). -/
inductive MnemonicClass where
  /-- a fixed 3-digit code -/
  | zeroOperand (word : Word)
  /-- opcode digit, to be joined with an address -/
  | oneOperand (opcode : Fin 10)
  /-- the DAT directive -/
  | data
deriving DecidableEq, Repr

/-- The table of rule R73. -/
def classOf (m : Mnemonic) : MnemonicClass :=
  match m with
  | .hlt => .zeroOperand 0
  | .cob => .zeroOperand 0
  | .inp => .zeroOperand 901
  | .out => .zeroOperand 902
  | .add => .oneOperand 1
  | .sub => .oneOperand 2
  | .sto => .oneOperand 3
  | .sta => .oneOperand 3
  | .lda => .oneOperand 5
  | .br => .oneOperand 6
  | .brz => .oneOperand 7
  | .brp => .oneOperand 8
  | .dat => .data

/-- The text before the first `#` of a line (rule R72). -/
def stripComment (line : List Char) : List Char :=
  match line with
  | [] => []
  | c :: rest => if c = '#' then [] else c :: stripComment rest

/-- Space and tab separate tokens (rule R72). -/
def isBlank (c : Char) : Bool :=
  decide (c = ' ') || decide (c = '\t')

/-- A token read so far joined to the tokens after it; an empty one is no token. -/
def consToken (current : Token) (rest : List Token) : List Token :=
  match current with
  | [] => rest
  | c :: cs => (c :: cs) :: rest

/-- The tokens of a text, split at runs of blanks; `current` is the token being read. -/
def splitTokens (current : Token) (text : List Char) : List Token :=
  match text with
  | [] => consToken current []
  | c :: rest =>
    if isBlank c then consToken current (splitTokens [] rest) else splitTokens (current ++ [c]) rest

/-- The tokens of a source line (rule R72). -/
def tokensOf (line : List Char) : List Token :=
  splitTokens [] (stripComment line)

/-- A decimal digit's value. -/
def digitValue (c : Char) : Option Nat :=
  if 48 ≤ c.toNat ∧ c.toNat ≤ 57 then some (c.toNat - 48) else none

/-- The value of digits read in base 10 after `acc`, or none when a character is no digit. -/
def digitsValue (acc : Nat) (t : Token) : Option Nat :=
  match t with
  | [] => some acc
  | c :: rest =>
    match digitValue c with
    | some d => digitsValue (acc * 10 + d) rest
    | none => none

/-- A decimal literal: one or more digits, leading zeros allowed, no sign (rule R75). -/
def literalValue (t : Token) : Option Nat :=
  match t with
  | [] => none
  | c :: rest => digitsValue 0 (c :: rest)

/-- A non-empty line, taken apart (rule R74). -/
structure ParsedLine where
  /-- its 1-based number in the source, every line counted (rule R86) -/
  line : Nat
  label : Option Token
  mnemonic : Option Token
  operand : Option Token
  extra : List Token
deriving DecidableEq, Repr

/-- The parts after the label. -/
def parseRest (line : Nat) (label : Option Token) (rest : List Token) : ParsedLine where
  line := line
  label := label
  mnemonic := rest.head?
  operand := rest.tail.head?
  extra := rest.tail.tail

/-- A line's tokens taken apart: the first token is a label unless it is a mnemonic (rule R74); an empty line gives
nothing (rule R72). -/
def parseTokens (line : Nat) (tokens : List Token) : Option ParsedLine :=
  match tokens with
  | [] => none
  | t :: rest =>
    match mnemonicOf t with
    | some _ => some (parseRest line none (t :: rest))
    | none => some (parseRest line (some t) rest)

/-- The non-empty lines of a source, each with its number; the same lines for both passes (rules R76, R78, R86). -/
def parseLines (line : Nat) (source : List (List Char)) : List ParsedLine :=
  match source with
  | [] => []
  | l :: rest =>
    match parseTokens line (tokensOf l) with
    | none => parseLines (line + 1) rest
    | some p => p :: parseLines (line + 1) rest

/-- The Symbol Table: label names and their addresses, in the order recorded. -/
abbrev SymbolTable := List (Token × Addr)

/-- The address recorded for a label. DESIGN CHOICE: names are compared character by character, so `x` and `X` are two
labels; the spec settles the case of mnemonics only (91_not_in_source.md N16, decision D18; log entry 23). -/
def lookupLabel (table : SymbolTable) (label : Token) : Option Addr :=
  match table with
  | [] => none
  | (l, a) :: rest => if l = label then some a else lookupLabel rest label

/-- One line of pass 1: the checks of rule R76 in its order, and the table after the line. -/
def collectLine (addr : Nat) (p : ParsedLine) (table : SymbolTable) : Except AssemblyError SymbolTable :=
  if h : addr < 100 then
    match p.label with
    | none => .ok table
    | some l =>
      match literalValue l, lookupLabel table l with
      | some _, _ => .error { kind := .malformedLine, line := p.line }
      | none, some _ => .error { kind := .duplicateLabel, line := p.line }
      | none, none => .ok (table ++ [(l, ⟨addr, h⟩)])
  else .error { kind := .programTooLarge, line := p.line }

/-- Pass 1, from the line at address `addr` on (rules R76, R77). -/
def passOne (addr : Nat) (lines : List ParsedLine) (table : SymbolTable) : Except AssemblyError SymbolTable :=
  match lines with
  | [] => .ok table
  | p :: rest =>
    match collectLine addr p table with
    | .error e => .error e
    | .ok table' => passOne (addr + 1) rest table'

/-- A one-operand line's address (rule R80). -/
def resolveOperand (table : SymbolTable) (t : Token) : Except AssemblyErrorKind Addr :=
  match literalValue t with
  | some v => if h : v < 100 then .ok ⟨v, h⟩ else .error .operandOutOfRange
  | none =>
    match lookupLabel table t with
    | some a => .ok a
    | none => .error .undefinedLabel

/-- A DAT line's value: 0 when absent, else a literal in 0..999 (rule R82). -/
def dataValue (operand : Option Token) : Except AssemblyErrorKind Word :=
  match operand with
  | none => .ok 0
  | some t =>
    match literalValue t with
    | some v => if h : v < 1000 then .ok ⟨v, h⟩ else .error .operandOutOfRange
    | none => .error .malformedLine

/-- The checks of a mnemonic's class and the line's word (rules R79 to R82). -/
def encodeClass (table : SymbolTable) (c : MnemonicClass) (operand : Option Token) : Except AssemblyErrorKind Word :=
  match c, operand with
  | .zeroOperand w, none => .ok w
  | .zeroOperand _, some _ => .error .malformedLine
  | .oneOperand _, none => .error .malformedLine
  | .oneOperand op, some t =>
    match resolveOperand table t with
    | .ok a => .ok (wordOf op a)
    | .error k => .error k
  | .data, o => dataValue o

/-- Pass 2 on one line: the mnemonic check, the extra tokens, the class (rules R78, R83, R85). -/
def encodeLine (table : SymbolTable) (p : ParsedLine) : Except AssemblyErrorKind Word :=
  match p.mnemonic with
  | none => .error .malformedLine
  | some t =>
    match mnemonicOf t with
    | none => .error .unknownMnemonic
    | some m =>
      match p.extra with
      | [] => encodeClass table (classOf m) p.operand
      | _ :: _ => .error .malformedLine

/-- Pass 2: the word of each non-empty line, in address order (rule R78). -/
def passTwo (table : SymbolTable) (lines : List ParsedLine) : Except AssemblyError (List Word) :=
  match lines with
  | [] => .ok []
  | p :: rest =>
    match encodeLine table p, passTwo table rest with
    | .error k, _ => .error { kind := k, line := p.line }
    | .ok _, .error e => .error e
    | .ok w, .ok ws => .ok (w :: ws)

/-- The 100-cell image: every cell that no line assigns holds 000 (rule R81). -/
def padImage (words : List Word) : List Word :=
  words ++ List.replicate (100 - words.length) 0

/-- `assemble(source)`: pass 1 over all lines, then pass 2 over all lines (rules R70, R78, R85); any error aborts the
whole assembly (rule R84). -/
def assemble (source : List (List Char)) : Except AssemblyError (List Word) :=
  let lines := parseLines 1 source
  match passOne 0 lines [] with
  | .error e => .error e
  | .ok table =>
    match passTwo table lines with
    | .error e => .error e
    | .ok words => .ok (padImage words)

/-- The lines of a text, cut at line feeds; the spec does not say what ends a line (log entry 17). -/
def splitLines (current : List Char) (text : List Char) : List (List Char) :=
  match text with
  | [] => [current]
  | c :: rest => if c = '\n' then current :: splitLines [] rest else splitLines (current ++ [c]) rest

/-- `assemble` on a text. -/
def assembleText (text : List Char) : Except AssemblyError (List Word) :=
  assemble (splitLines [] text)

end Sys2Proof.Machine
end

