-- ==== Sys2Proof/Machine/Run.lean ====
section
/-!
DEFINITION. The run controller `run(max_cycles)` (40_cycle.md rules R107 to R112).
-/

namespace Sys2Proof.Machine

/-- The three outcomes of a run (rule R108). -/
inductive RunOutcome where
  /-- HLT executed; that many cycles ran, the HLT included -/
  | halted (cycles : Nat)
  /-- the budget was used without a halt: not a fault (60_exceptions.md rule R144) -/
  | budgetExceeded (cycles : Nat)
  /-- a step raised a fatal error: the fault record, and no partial result -/
  | fault (r : FaultRecord)
deriving DecidableEq, Repr

/-- The loop of rule R107: at most `budget` more steps, none once the engine is halted or faulted (`step` is enabled on
neither). -/
def runLoop (budget : Nat) (s : State) : State :=
  match budget with
  | 0 => s
  | k + 1 =>
    match step s with
    | .next t => runLoop k t
    | .fault _ => s
    | .refused _ => s

/-- What `run` returns on the state its loop ends in: FAULT before HALTED, HALTED before the budget (rules R107, R145). -/
def State.runOutcome (s : State) : RunOutcome :=
  match s.fault with
  | some r => .fault r
  | none => if s.halted then .halted s.cycles else .budgetExceeded s.cycles

/-- The engine after `run(max_cycles)`: CYCLES counts from 0 in each run (rules R107, R111). -/
def runState (maxCycles : Nat) (s : State) : State :=
  runLoop maxCycles s.startRun

/-- `run(max_cycles)`: its outcome and the engine it leaves. -/
def run (maxCycles : Nat) (s : State) : RunOutcome × State :=
  ((runState maxCycles s).runOutcome, runState maxCycles s)

end Sys2Proof.Machine
end

