-- ==== Sys2Proof/Machine/HostPort.lean ====
section
/-!
DEFINITION. The host's transactions (70_reset_and_hazards.md rules R160 to R163 and R167 to R171): reset with a program
image and the inputs, run, the read-back of state and of status, and `execute`. The host has no other move, and none
while a run is in progress (rule R169).
-/

namespace Sys2Proof.Machine

/-- Why a transaction is refused before the engine sees it. Each is safe: no engine state results. -/
inductive HostRefusal where
  /-- the image has not exactly 100 elements (rule R163) -/
  | imageLength (n : Nat)
  /-- an image element is outside 0..999 (rule R163) -/
  | imageValue (v : Nat)
  /-- an input value is outside 0..999 (rule R169) -/
  | inputValue (v : Nat)
  /-- more inputs than `in_capacity` (00_scope.md rule R7) -/
  | tooManyInputs (n : Nat)
  /-- `max_cycles` above a finite `out_capacity` (rule R7, 20_memory.md rule R55) -/
  | budgetAboveOutCapacity (maxCycles : Nat)
deriving DecidableEq, Repr

/-- The numbers of a list as words, or the first one that is no word. -/
def wordsOfNumbers (ns : List Nat) : Except Nat (List Word) :=
  match ns with
  | [] => .ok []
  | n :: rest =>
    match wordOfNumber n, wordsOfNumbers rest with
    | .error _, _ => .error n
    | .ok _, .error bad => .error bad
    | .ok w, .ok ws => .ok (w :: ws)

/-- The memory whose cells from address `k` on hold the listed words, in its canonical form. Words past cell 99 have no
cell. -/
def Memory.loadFrom (k : Nat) (words : List Word) : Memory :=
  match words with
  | [] => []
  | v :: rest =>
    if h : k < 100 then
      if v = unlisted then Memory.loadFrom (k + 1) rest else (⟨k, h⟩, v) :: Memory.loadFrom (k + 1) rest
    else []

/-- "element k, a value in 0..999, becomes cell k" (rule R163). -/
def Memory.ofImage (image : List Word) : Memory :=
  Memory.loadFrom 0 image

/-- The 100 cells in mailbox order (30_encoding.md rule R69). -/
def Memory.toImage (m : Memory) : List Word :=
  (List.finRange 100).map (fun a => m.read a)

/-- `reset(image, inputs)`: a fresh engine (rule R160); the loader refuses anything but 100 values in 0..999 and inputs
in 0..999 (rules R163, R169). -/
def hostReset (p : Params) (image inputs : List Nat) : Except HostRefusal State :=
  if image.length ≠ 100 then .error (.imageLength image.length)
  else
    match wordsOfNumbers image, wordsOfNumbers inputs with
    | .error v, _ => .error (.imageValue v)
    | .ok _, .error v => .error (.inputValue v)
    | .ok img, .ok ins =>
      if capacityAdmits p.inCapacity ins.length then .ok (State.fresh p (Memory.ofImage img) ins)
      else .error (.tooManyInputs ins.length)

/-- The host's `run(max_cycles)` (rule R167). A finite `out_capacity` must be at least `max_cycles` (rule R7). -/
def hostRun (maxCycles : Nat) (s : State) : Except HostRefusal (RunOutcome × State) :=
  if capacityAdmits s.params.outCapacity maxCycles then .ok (run maxCycles s)
  else .error (.budgetAboveOutCapacity maxCycles)

/-- The engine state as the host reads it back (rule R170). -/
structure ReadBack where
  memory : List Word
  pc : Addr
  acc : Word
  neg : Bool
  inputsLeft : List Word
  outputs : List Word
deriving DecidableEq, Repr

/-- Read state: the whole engine state after `Halted` or `BudgetExceeded`, nothing after `Fault` (rule R170,
40_cycle.md rule R112). DESIGN CHOICE: rule R167 does not say what a read gets between reset and the first run, and it
is answered there as after a run, with the state that reset left (log entry 22). -/
def State.readBack (s : State) : Option ReadBack :=
  match s.fault with
  | some _ => none
  | none => some
      { memory := s.mem.toImage, pc := s.pc, acc := s.acc, neg := s.neg, inputsLeft := s.inTray, outputs := s.outTray }

/-- The status the host reads and never writes (rule R168). -/
structure Status where
  halted : Bool
  fault : Option FaultRecord
  cycles : Nat
deriving DecidableEq, Repr

/-- Read status (rule R168). DESIGN CHOICE: between reset and the first run, where there is no last run, CYCLES reads as
0 (log entry 22). -/
def State.status (s : State) : Status where
  halted := s.halted
  fault := s.fault
  cycles := s.cycles

/-- How an execution ended without an error (rule R171). -/
inductive HaltReason where
  | halted
  | budgetExceeded
deriving DecidableEq, Repr

/-- `execute(image, inputs) -> (OutputSequence, HaltReason) | RuntimeError` (rule R171). -/
inductive Execution where
  | output (outputs : List Word) (reason : HaltReason)
  | runtimeError (r : FaultRecord)
deriving DecidableEq, Repr

/-- What `execute` returns from a run's outcome and the engine it left (rule R171). -/
def executionOf (o : RunOutcome) (s : State) : Execution :=
  match o with
  | .halted _ => .output s.outTray .halted
  | .budgetExceeded _ => .output s.outTray .budgetExceeded
  | .fault r => .runtimeError r

/-- `execute` is `reset` followed by `run`; the host always supplies `max_cycles` (rule R171). -/
def execute (p : Params) (image inputs : List Nat) (maxCycles : Nat) : Except HostRefusal Execution :=
  match hostReset p image inputs with
  | .error r => .error r
  | .ok s =>
    match hostRun maxCycles s with
    | .error r => .error r
    | .ok (o, t) => .ok (executionOf o t)

end Sys2Proof.Machine
end

