-- ==== Sys2Proof/Machine/Harness.lean ====
section
/-!
DEFINITION. The batch harness, the host test bench that the source's scenarios are stated through
(70_reset_and_hazards.md rules R172 to R177). It is host software outside the block (00_scope.md rule R4), kept here as a
reference; it starts at the parsed record.
-/

namespace Sys2Proof.Machine

/-- A parsed test record (rule R172): every input and the expected result are 3-digit values by their type. -/
structure TestRecord where
  name : String
  /-- "ordered sequence of 3-digit values" -/
  inputs : List Word
  /-- "optional 3-digit value" -/
  expectedResult : Option Word
  /-- "unsigned integer" -/
  maxCycles : Nat
deriving DecidableEq, Repr

/-- Why a result did not match (rule R174). -/
inductive MismatchReason where
  /-- the output tray is empty at halt -/
  | noOutputProduced
  /-- the last output value is another number -/
  | lastOutput (observed : Word)
deriving DecidableEq, Repr

/-- The four outcomes of a test (rule R177). -/
inductive Verdict where
  | pass
  | resultMismatch (why : MismatchReason)
  | cycleBudgetExceeded
  | executionError (kind : FaultKind)
deriving DecidableEq, Repr

/-- The verdict of a halted run: only the last output value is compared, as a number (rules R174, R175). -/
def haltedVerdict (expected : Option Word) (outputs : List Word) : Verdict :=
  match expected, outputs.getLast? with
  | none, _ => .pass
  | some _, none => .resultMismatch .noOutputProduced
  | some e, some v => if v.val = e.val then .pass else .resultMismatch (.lastOutput v)

/-- The verdict of a run's outcome (rules R174 to R177). -/
def verdictOf (expected : Option Word) (o : RunOutcome) (outputs : List Word) : Verdict :=
  match o with
  | .halted _ => haltedVerdict expected outputs
  | .budgetExceeded _ => .cycleBudgetExceeded
  | .fault r => .executionError r.kind

/-- `run_test(program_image, record)`: reset and run on a fresh engine, then classify (rule R173). -/
def runTest (p : Params) (image : List Nat) (record : TestRecord) : Except HostRefusal Verdict :=
  match hostReset p image (record.inputs.map Fin.val) with
  | .error r => .error r
  | .ok s =>
    match hostRun record.maxCycles s with
    | .error r => .error r
    | .ok (o, t) => .ok (verdictOf record.expectedResult o t.outTray)

/-- Each record runs on a fresh engine, and a failing one does not abort the rest (rule R177). -/
def runBatch (p : Params) (image : List Nat) (records : List TestRecord) : List (Except HostRefusal Verdict) :=
  records.map (runTest p image)

end Sys2Proof.Machine
end

