-- ==== Sys2Proof/Safety.lean ====
section
/-!
DEFINITION. What counts as a sound engine state and a safe run, and the frames, in the terms the statements use.
-/

namespace Sys2Proof.Machine

/-- A fault record the engine can have written: its kind is one the engine raises (60_exceptions.md rule R140), and its
cycle is the step after the last counted one (40_cycle.md rule R113). -/
def FaultRecord.sound (r : FaultRecord) (cycles : Nat) : Prop :=
  (r.kind = .invalidOpcode ∨ r.kind = .inputTrayUnderflow) ∧ r.cycle = cycles + 1

/-- The invariant of the engine: memory in its canonical form, and a faulted engine is not halted and holds a record the
engine can have written. The value ranges of 10_state.md rule R35 hold by type. -/
def State.Inv (s : State) : Prop :=
  s.mem.wf ∧ ∀ r, s.fault = some r → s.halted = false ∧ r.sound s.cycles

/-- The instruction that the next step runs: the decode of the mailbox at PC (rules R101, R103). -/
def State.nextInstr (s : State) : Instr :=
  decode (s.mem.read s.pc)

/-- Whether the next step raises a fault: an illegal word, or IN with the tray empty (rules R140 to R142). -/
def State.faultsNext (s : State) : Prop :=
  s.nextInstr.illegal = true ∨ (s.nextInstr = .inp ∧ s.inTray = [])

/-- Whether `i` is a branch to `a` that is taken (44_branch.md): BR always (rule R130), BRZ when ACC is 0 (rule R131),
BRP when NEG is false under `NonNegative` and when NEG is true under `NegativeSet` (rule R132). -/
def State.takesBranch (s : State) (i : Instr) (a : Addr) : Prop :=
  i = .br a ∨ (i = .brz a ∧ s.acc = 0) ∨ (i = .brp a ∧ (s.params.brpPolarity = .nonNegative ↔ s.neg = false))

/-- A step that is taken and raises no fault. -/
def State.SafeStep (s : State) : Prop :=
  s.enabled = true ∧ ¬ s.faultsNext

/-- A run that returns no fault (rule R108). -/
def SafeRun (maxCycles : Nat) (s : State) : Prop :=
  (runState maxCycles s).fault = none

/-- Every mailbox but the one at `a` reads as before. -/
def SameCellsBut (a : Addr) (s t : State) : Prop :=
  ∀ b, b ≠ a → t.mem.read b = s.mem.read b

/-- Every mailbox reads as before. -/
def SameCells (s t : State) : Prop :=
  ∀ b, t.mem.read b = s.mem.read b

/-- The state with the run's own count left out: what rule R111 calls the same state after runs of different budgets. -/
def State.withoutCount (s : State) : State :=
  { s with cycles := 0, fault := s.fault.map (fun r => { r with cycle := 0 }) }

/-- Two engines that agree on the state that rule R114 names (memory as what its cells hold), under one BRP polarity. IR,
the fetch address, CYCLES and the other parameters may differ. -/
def State.SameObservables (s s' : State) : Prop :=
  (∀ a, s.mem.read a = s'.mem.read a) ∧ s.pc = s'.pc ∧ s.acc = s'.acc ∧ s.neg = s'.neg ∧ s.inTray = s'.inTray ∧
    s.outTray = s'.outTray ∧ s.halted = s'.halted ∧ s.fault = s'.fault ∧
    s.params.brpPolarity = s'.params.brpPolarity

end Sys2Proof.Machine
end

