-- ==== Sys2Proof/Certificates/Slice0/Obligations.lean ====
section
/-!
DEFINITION. The statements for the provers, in the order of the spec's files. A statement that reads a register, a tray
or the memory of an engine after a fault says in its docstring that this rests on the model's choice (log entry 7): the
spec leaves that state unobservable (40_cycle.md rule R112), so every other one is about steps that raise no fault.
-/

open Sys2Proof Sys2Proof.Machine

/-! ## Encoding (30_encoding.md) -/

/-- Words written out from the opcode table and from 95_test_vectors.md section 2.1. -/
def Obligations.SampleWordsDecode : Prop :=
  decode 0 = .hlt 0 ∧ decode 42 = .hlt 42 ∧ decode 100 = .add 0 ∧ decode 199 = .add 99 ∧ decode 250 = .sub 50 ∧
    decode 399 = .sto 99 ∧ decode 450 = .illegalFour 50 ∧ decode 500 = .lda 0 ∧ decode 698 = .br 98 ∧
    decode 700 = .brz 0 ∧ decode 899 = .brp 99 ∧ decode 900 = .illegalNineZero ∧ decode 901 = .inp ∧
    decode 902 = .out ∧ decode 903 = .illegalNineOther 3 ∧ decode 999 = .illegalNineOther 99

/-- Rule R64, row by row: each range of words decodes to the row's instruction with the row's operand. -/
def Obligations.DecodeTableRowByRow : Prop :=
  ∀ (w : Word) (x : Addr),
    (w.val = x.val → decode w = .hlt x) ∧
    (w.val = 100 + x.val → decode w = .add x) ∧
    (w.val = 200 + x.val → decode w = .sub x) ∧
    (w.val = 300 + x.val → decode w = .sto x) ∧
    (w.val = 400 + x.val → decode w = .illegalFour x) ∧
    (w.val = 500 + x.val → decode w = .lda x) ∧
    (w.val = 600 + x.val → decode w = .br x) ∧
    (w.val = 700 + x.val → decode w = .brz x) ∧
    (w.val = 800 + x.val → decode w = .brp x) ∧
    (w.val = 900 → decode w = .illegalNineZero) ∧
    (w.val = 901 → decode w = .inp) ∧
    (w.val = 902 → decode w = .out) ∧
    (w.val = 900 + x.val ∧ 3 ≤ x.val → decode w = .illegalNineOther x)

/-- Decode and encode agree on every well-formed instruction, with every operand at every value. -/
def Obligations.DecodeOfEncodeIsIdentity : Prop :=
  ∀ i : Instr, i.wellFormed = true → decode (encode i) = i

/-- Every word has one reading, and it is the word of it. -/
def Obligations.EncodeOfDecodeIsIdentity : Prop :=
  ∀ w : Word, (decode w).wellFormed = true ∧ encode (decode w) = w

/-- Rule R65: exactly the words 400..499, 900 and 903..999 are illegal, 198 of them against 802 legal ones, and fetching
one raises `InvalidOpcode`. -/
def Obligations.IllegalWordsAreRejected : Prop :=
  (∀ w : Word, (decode w).illegal = true ↔
    (400 ≤ w.val ∧ w.val ≤ 499) ∨ w.val = 900 ∨ (903 ≤ w.val ∧ w.val ≤ 999)) ∧
  ((List.finRange 1000).filter (fun w => (decode w).illegal)).length = 198 ∧
  ((List.finRange 1000).filter (fun w => !(decode w).illegal)).length = 802 ∧
  ∀ s : State, s.enabled = true → (decode (s.mem.read s.pc)).illegal = true →
    ∃ t r, step s = .next t ∧ t.fault = some r ∧ r.kind = .invalidOpcode

/-- Rule R61: the opcode is the leading digit and the operand the trailing two, the word is opcode * 100 + operand, and
so the assembler builds it. -/
def Obligations.WordIsOpcodeAndOperand : Prop :=
  (∀ w : Word, opcodeOf w = w.val / 100 ∧ opcodeOf w ≤ 9 ∧ (operandOf w).val = w.val % 100 ∧
    w.val = opcodeOf w * 100 + (operandOf w).val) ∧
  ∀ (op : Fin 10) (x : Addr), (wordOf op x).val = op.val * 100 + x.val ∧ opcodeOf (wordOf op x) = op.val ∧
    operandOf (wordOf op x) = x

/-! ## The cycle (40_cycle.md) -/

/-- The step of an enabled engine is `exec` of the decoded word on the state after the fetch, and then the counting of
the step; the fetch changes the fetch address, IR and PC and nothing else. -/
def Obligations.StepRunsDecodedInstruction : Prop :=
  ∀ (s : State) (i : Instr), s.enabled = true → decode (s.mem.read s.pc) = i → i.wellFormed = true →
    (∃ u, exec i s.fetch = .next u ∧ step s = .next u.completeStep) ∧
    s.fetch = { s with fetchAddr := s.pc, ir := s.mem.read s.pc, pc := nextAddr s.pc } ∧
    ∀ u : State, u.completeStep = if u.fault = none then { u with cycles := u.cycles + 1 } else u

/-- Rule R101: the fetch reads the word at the old PC into IR and then advances PC by one, mod 100. -/
def Obligations.FetchReadsThenAdvances : Prop :=
  ∀ s : State, s.fetch.fetchAddr = s.pc ∧ s.fetch.ir = s.mem.read s.pc ∧ s.fetch.pc.val = (s.pc.val + 1) % 100 ∧
    s.fetch = { s with fetchAddr := s.fetch.fetchAddr, ir := s.fetch.ir, pc := s.fetch.pc }

/-- PC after a step that does not fault: the target of a taken branch, else one more than the fetch address, mod 100.
(After a fault PC is unobservable, so the statement leaves that step out.) -/
def Obligations.PcAfterStep : Prop :=
  ∀ s t : State, step s = .next t → t.fault = none →
    (∀ a, s.nextInstr = .br a → t.pc = a) ∧
    (∀ a, s.nextInstr = .brz a → s.acc = 0 → t.pc = a) ∧
    (∀ a, s.nextInstr = .brz a → s.acc ≠ 0 → t.pc.val = (s.pc.val + 1) % 100) ∧
    (∀ a, s.nextInstr = .brp a → (s.params.brpPolarity = .nonNegative ↔ s.neg = false) → t.pc = a) ∧
    (∀ a, s.nextInstr = .brp a → ¬ (s.params.brpPolarity = .nonNegative ↔ s.neg = false) →
      t.pc.val = (s.pc.val + 1) % 100) ∧
    ((∀ a, s.nextInstr ≠ .br a ∧ s.nextInstr ≠ .brz a ∧ s.nextInstr ≠ .brp a) →
      t.pc.val = (s.pc.val + 1) % 100)

/-- Every step of an engine that is neither halted nor faulted completes, raising a fault exactly on an illegal word and
on IN with the tray empty. The record's cycle number and mailbox follow the spec's own decision D10 (log entry 9). -/
def Obligations.EnabledStepCompletesOrRaises : Prop :=
  ∀ s : State, s.enabled = true →
    ∃ t, step s = .next t ∧ (t.fault ≠ none ↔ s.faultsNext) ∧
      (s.nextInstr.illegal = true → t.fault = some { kind := .invalidOpcode, cycle := s.cycles + 1, mailbox := s.pc }) ∧
      (s.nextInstr = .inp → s.inTray = [] →
        t.fault = some { kind := .inputTrayUnderflow, cycle := s.cycles + 1, mailbox := s.pc })

/-- No step is enabled on a halted or a faulted engine: the spec's own decision D8 (log entry 8). FAULT is tested first. -/
def Obligations.StoppedEngineTakesNoStep : Prop :=
  (∀ (s : State) (r : FaultRecord), s.fault = some r → step s = .fault (.engineFaulted r)) ∧
  (∀ s : State, s.fault = none → s.halted = true → step s = .fault .engineHalted)

/-- Every completed step counts one cycle and a step that faults counts none (rule R166). -/
def Obligations.EveryInstructionCountsOneCycle : Prop :=
  ∀ s t : State, step s = .next t →
    (t.fault = none → t.cycles = s.cycles + 1) ∧ (t.fault ≠ none → t.cycles = s.cycles)

/-! ## The instructions, one by one: result, completion and frame -/

/-- HLT (rule R115): words 000..099, the operand ignored; the assembler emits 000 for HLT and for its alias COB; HALTED
becomes true, and the execute phase changes nothing else. -/
def Obligations.HltSetsHaltedAlone : Prop :=
  (∀ (x : Addr) (s : State), ∃ t, exec (.hlt x) s = .next t ∧ t.halted = true ∧ t.neg = s.neg ∧ SameCells s t ∧
    t = { s with halted := true }) ∧
  (∀ (w : Word) (x : Addr), decode w = .hlt x ↔ w.val = x.val) ∧
  classOf .hlt = .zeroOperand 0 ∧ classOf .cob = .zeroOperand 0

/-- A HLT step (rule R116's first three corner cases): whatever the operand digits, PC is one more than the HLT's
address, mod 100, the step counts as one cycle, and nothing else changes beside the fetch. -/
def Obligations.HltStepAdvancesPcAndCounts : Prop :=
  ∀ s : State, s.enabled = true → (s.mem.read s.pc).val ≤ 99 →
    ∃ t, step s = .next t ∧ t.pc.val = (s.pc.val + 1) % 100 ∧ t.cycles = s.cycles + 1 ∧
      t = { s with ir := s.mem.read s.pc, fetchAddr := s.pc, pc := t.pc, halted := true, cycles := t.cycles }

/-- HLT is the only way to stop cleanly, and a halted engine takes no step (rule R117). -/
def Obligations.OnlyHltStopsCleanly : Prop :=
  (∀ s t : State, step s = .next t → t.fault = none → (t.halted = true ↔ ∃ x, s.nextInstr = .hlt x)) ∧
  (∀ s t : State, s.halted = true → step s ≠ .next t)

/-- ADD (rule R118). -/
def Obligations.AddIsModThousand : Prop :=
  ∀ (a : Addr) (s : State),
    (∀ w : Word, decode w = .add a ↔ w.val = 100 + a.val) ∧
    ∃ t, exec (.add a) s = .next t ∧ t.acc.val = (s.acc.val + (s.mem.read a).val) % 1000 ∧ t.neg = s.neg ∧
      SameCells s t ∧ t = { s with acc := t.acc }

/-- SUB (rule R120), with `raw` an exact integer. -/
def Obligations.SubRecordsTheBorrow : Prop :=
  ∀ (a : Addr) (s : State),
    (∀ w : Word, decode w = .sub a ↔ w.val = 200 + a.val) ∧
    ∃ t, exec (.sub a) s = .next t ∧
      ((s.acc.val : Int) - (s.mem.read a).val < 0 →
        t.neg = true ∧ (t.acc.val : Int) = ((s.acc.val : Int) - (s.mem.read a).val + 1000) % 1000) ∧
      (0 ≤ (s.acc.val : Int) - (s.mem.read a).val →
        t.neg = false ∧ (t.acc.val : Int) = (s.acc.val : Int) - (s.mem.read a).val) ∧
      SameCells s t ∧ t = { s with acc := t.acc, neg := t.neg }

/-- The accumulator after SUB is the difference mod 1000 in every case, and NEG then implies it is not 0. -/
def Obligations.SubIsModularDifference : Prop :=
  ∀ (a : Addr) (s : State), ∃ t, exec (.sub a) s = .next t ∧
    (t.acc.val : Int) = ((s.acc.val : Int) - (s.mem.read a).val) % 1000 ∧
    (t.neg = true → 1 ≤ t.acc.val)

/-- STO (rule R125): the cell named by the operand holds ACC; every other cell reads as before; ACC and NEG are
unchanged. -/
def Obligations.StoWritesTheNamedCell : Prop :=
  ∀ (a : Addr) (s : State),
    (∀ w : Word, decode w = .sto a ↔ w.val = 300 + a.val) ∧
    ∃ t, exec (.sto a) s = .next t ∧
      (∀ d : Addr, effectiveAddr a = d → d = a ∧ t.mem.read d = s.acc ∧ SameCellsBut d s t) ∧
      t.acc = s.acc ∧ t.neg = s.neg ∧ t = { s with mem := t.mem }

/-- LDA (rule R127). -/
def Obligations.LdaCopiesTheNamedCell : Prop :=
  ∀ (a : Addr) (s : State),
    (∀ w : Word, decode w = .lda a ↔ w.val = 500 + a.val) ∧
    ∃ t, exec (.lda a) s = .next t ∧ t.acc = s.mem.read a ∧ t.neg = s.neg ∧ SameCells s t ∧ t = { s with acc := t.acc }

/-- BR (rule R130): the step of a BR at PC leaves PC at the operand, whatever the fetch advanced it to; a BR to its own
address is an endless loop that only the budget ends, each iteration one cycle. -/
def Obligations.BrSetsPc : Prop :=
  ∀ (a : Addr) (s : State),
    (∀ w : Word, decode w = .br a ↔ w.val = 600 + a.val) ∧
    (∃ t, exec (.br a) s = .next t ∧ t.pc = a ∧ SameCells s t ∧ t = { s with pc := a }) ∧
    (s.enabled = true → s.nextInstr = .br a → ∃ t, step s = .next t ∧ t.pc = a) ∧
    (s.enabled = true → s.nextInstr = .br a → s.pc = a → ∀ n, (run n s).1 = .budgetExceeded n)

/-- BRZ (rule R131): taken exactly when ACC is 0, whatever NEG is. -/
def Obligations.BrzTestsAcc : Prop :=
  ∀ (a : Addr) (s : State),
    (∀ w : Word, decode w = .brz a ↔ w.val = 700 + a.val) ∧
    (∃ t, exec (.brz a) s = .next t ∧ (s.acc = 0 → t.pc = a) ∧ (s.acc ≠ 0 → t.pc = s.pc) ∧ SameCells s t ∧
      t = { s with pc := t.pc })

/-- BRP (rule R132), for both values of `brp_polarity`: it reads NEG only and changes PC only; and a BRP before any SUB
reads the reset value `neg_reset`. The two defaults are choices of the spec that the model follows and not the source's
words: `brp_polarity` is NonNegative by decision D1 (log entry 1) and `neg_reset` false by decision D3 (log entry 2). -/
def Obligations.BrpTestsNegByPolarity : Prop :=
  (∀ (a : Addr) (s : State),
    (∀ w : Word, decode w = .brp a ↔ w.val = 800 + a.val) ∧
    ∃ t, exec (.brp a) s = .next t ∧
      (s.params.brpPolarity = .nonNegative → t.pc = if s.neg = false then a else s.pc) ∧
      (s.params.brpPolarity = .negativeSet → t.pc = if s.neg = true then a else s.pc) ∧
      t.neg = s.neg ∧ SameCells s t ∧ t = { s with pc := t.pc }) ∧
  Params.default.brpPolarity = .nonNegative ∧ Params.default.negReset = false ∧
  (∀ (p : Params) (m : Memory) (ins : List Word), (State.fresh p m ins).neg = p.negReset)

/-- A branch writes PC alone and in the same step (rule R129): taken, it leaves PC at its operand, any address 0..99; not
taken, it leaves the advanced PC. No branch writes ACC, NEG, memory or a link register, and the next step fetches from
where the branch left PC. -/
def Obligations.BranchesWritePcAlone : Prop :=
  ∀ (a : Addr) (i : Instr) (s : State), i = .br a ∨ i = .brz a ∨ i = .brp a →
    (∃ t, exec i s = .next t ∧ (s.takesBranch i a → t.pc = a) ∧ (¬ s.takesBranch i a → t.pc = s.pc) ∧ t.acc = s.acc ∧ t.neg = s.neg ∧ SameCells s t ∧
      t = { s with pc := t.pc }) ∧
    (s.enabled = true → s.nextInstr = i →
      ∃ t, step s = .next t ∧ (s.takesBranch i a → t.pc = a) ∧
        (¬ s.takesBranch i a → t.pc.val = (s.pc.val + 1) % 100) ∧ t.enabled = true ∧
        t.fetch.ir = s.mem.read t.pc ∧ t.nextInstr = decode (s.mem.read t.pc))

/-- IN (rule R135): exactly the word 901; the front value goes to ACC and leaves the tray, and NEG is unchanged; on an
empty tray it raises `InputTrayUnderflow`. -/
def Obligations.InpTakesTheFrontValue : Prop :=
  (∀ w : Word, decode w = .inp ↔ w.val = 901) ∧
  (∀ (s : State) (v : Word) (rest : List Word), s.inTray = v :: rest →
    ∃ t, exec .inp s = .next t ∧ t.acc = v ∧ t.inTray = rest ∧ t.neg = s.neg ∧ SameCells s t ∧
      t = { s with acc := v, inTray := rest }) ∧
  (∀ s : State, s.inTray = [] →
    ∃ t r, exec .inp s = .next t ∧ t.fault = some r ∧ r.kind = .inputTrayUnderflow)

/-- IN on an empty tray traps: FAULT records the underflow at the IN's address, ACC is not written, and the run ends with
the fault. The cycle number is the spec's decision D10 (log entry 9), and that the rest of the state is kept is the
model's choice (log entry 7). -/
def Obligations.InpOnEmptyTrayRaisesUnderflow : Prop :=
  (∀ s : State, s.inTray = [] →
    ∃ t, exec .inp s = .next t ∧ t.acc = s.acc ∧
      t.fault = some { kind := .inputTrayUnderflow, cycle := s.cycles + 1, mailbox := s.fetchAddr } ∧
      t = { s with fault := t.fault }) ∧
  ∀ (s : State) (n : Nat), s.enabled = true → s.nextInstr = .inp → s.inTray = [] →
    (run (n + 1) s).1 = .fault { kind := .inputTrayUnderflow, cycle := 1, mailbox := s.pc }

/-- OUT (rule R137): exactly the word 902; ACC is appended at the end of the output tray and is unchanged. -/
def Obligations.OutAppendsAcc : Prop :=
  (∀ w : Word, decode w = .out ↔ w.val = 902) ∧
  ∀ s : State, ∃ t, exec .out s = .next t ∧ t.outTray = s.outTray ++ [s.acc] ∧ t.acc = s.acc ∧ SameCells s t ∧
    t = { s with outTray := t.outTray }

/-- The three illegal rows: their own effect is to raise `InvalidOpcode` with this step's number and the fetch address,
touching neither port. The cycle number and the mailbox are the spec's decision D10 (log entry 9); that the rest of the
state is kept is the model's choice (log entry 7). -/
def Obligations.IllegalRowsRaiseInvalidOpcode : Prop :=
  ∀ (i : Instr) (x : Addr) (s : State), i = .illegalFour x ∨ i = .illegalNineZero ∨ i = .illegalNineOther x →
    ∃ t, exec i s = .next t ∧
      t.fault = some { kind := .invalidOpcode, cycle := s.cycles + 1, mailbox := s.fetchAddr } ∧
      t.inTray = s.inTray ∧ t.outTray = s.outTray ∧ SameCells s t ∧ t = { s with fault := t.fault }

/-- The model's choice (log entry 7), which the spec allows: a faulting step leaves everything but FAULT as the fetch left
it, and is not counted. -/
def Obligations.FaultingStepChangesFaultAlone : Prop :=
  ∀ s t : State, step s = .next t → t.fault ≠ none → t = { s.fetch with fault := t.fault }

/-! ## Whole-machine rules -/

/-- ACC (rule R21): which instructions write it and with what, what STO, BRZ and OUT read it for, and which instructions
do not read it. -/
def Obligations.AccessToAccByInstruction : Prop :=
  (∀ s t : State, step s = .next t → t.fault = none →
    (∀ a, s.nextInstr = .add a → t.acc.val = (s.acc.val + (s.mem.read a).val) % 1000) ∧
    (∀ a, s.nextInstr = .sub a → t.acc.val =
      if s.acc.val < (s.mem.read a).val then s.acc.val + 1000 - (s.mem.read a).val
      else s.acc.val - (s.mem.read a).val) ∧
    (∀ a, s.nextInstr = .lda a → t.acc = s.mem.read a) ∧
    (s.nextInstr = .inp → s.inTray.head? = some t.acc) ∧
    (∀ a, s.nextInstr = .sto a → t.mem.read a = s.acc) ∧
    (∀ a, s.nextInstr = .brz a → t.pc = if s.acc = 0 then a else nextAddr s.pc) ∧
    (s.nextInstr = .out → t.outTray.getLast? = some s.acc) ∧
    ((∀ a, s.nextInstr ≠ .add a ∧ s.nextInstr ≠ .sub a ∧ s.nextInstr ≠ .lda a) → s.nextInstr ≠ .inp →
      t.acc = s.acc)) ∧
  (∀ (s t : State) (v : Word), step s = .next t → t.fault = none →
    ((∃ a, s.nextInstr = .lda a) ∨ s.nextInstr = .inp → step { s with acc := v } = .next t) ∧
    ((∃ a, s.nextInstr = .hlt a ∨ s.nextInstr = .br a ∨ s.nextInstr = .brp a) →
      step { s with acc := v } = .next { t with acc := v }))

/-- NEG (rule R22): written only by SUB, to the borrow, and read only by BRP. -/
def Obligations.NegIsWrittenOnlyBySub : Prop :=
  (∀ s t : State, step s = .next t → t.fault = none →
    (∀ a, s.nextInstr = .sub a → (t.neg = true ↔ (s.acc.val : Int) - (s.mem.read a).val < 0)) ∧
    ((∀ a, s.nextInstr ≠ .sub a) → t.neg = s.neg)) ∧
  (∀ (s t : State) (b : Bool), step s = .next t → t.fault = none → (∀ a, s.nextInstr ≠ .brp a) →
    ∃ u, step { s with neg := b } = .next u ∧ u = { t with neg := u.neg })

/-- NEG implies a nonzero accumulator after a SUB, and every instruction that writes neither keeps it so. -/
def Obligations.NegImpliesNonzeroUntilAccWritten : Prop :=
  (∀ (s t : State) (a : Addr), step s = .next t → s.nextInstr = .sub a → t.neg = true → 1 ≤ t.acc.val) ∧
  (∀ s t : State, step s = .next t → t.fault = none →
    (∀ a, s.nextInstr ≠ .add a ∧ s.nextInstr ≠ .sub a ∧ s.nextInstr ≠ .lda a) → s.nextInstr ≠ .inp →
    (s.neg = true → 1 ≤ s.acc.val) → t.neg = true → 1 ≤ t.acc.val)

/-- Memory (rule R48): changed only by STO, in the one cell it names, and by the loading of the image at reset; ADD and
SUB do not write it. -/
def Obligations.MemoryIsWrittenOnlyBySto : Prop :=
  (∀ s t : State, step s = .next t → t.fault = none →
    (∀ a, s.nextInstr = .sto a → t.mem.read a = s.acc ∧ SameCellsBut a s t) ∧
    ((∀ a, s.nextInstr ≠ .sto a) → SameCells s t ∧ t.mem = s.mem)) ∧
  ∀ (p : Params) (image inputs : List Nat) (s : State), hostReset p image inputs = .ok s →
    ∀ a : Addr, image[a.val]? = some (s.mem.read a).val

/-- The input tray changes only by IN, which takes its front value; the output tray changes only by OUT. -/
def Obligations.TraysAreTouchedOnlyByInAndOut : Prop :=
  ∀ s t : State, step s = .next t → t.fault = none →
    (s.nextInstr = .inp → s.inTray = t.acc :: t.inTray) ∧
    (s.nextInstr ≠ .inp → t.inTray = s.inTray) ∧
    (s.nextInstr = .out → t.outTray = s.outTray ++ [s.acc]) ∧
    (s.nextInstr ≠ .out → t.outTray = s.outTray)

/-- The output tray (rule R29): only OUT changes it, by appending ACC at its end; over a whole run nothing is removed or
overwritten, and the host reads the full final sequence. -/
def Obligations.OutputTrayIsAppendOnly : Prop :=
  (∀ s t : State, step s = .next t → t.fault = none →
    t.outTray = s.outTray ∨ (s.nextInstr = .out ∧ t.outTray = s.outTray ++ [s.acc])) ∧
  (∀ (s : State) (n : Nat), SafeRun n s →
    s.outTray <+: (runState n s).outTray ∧
    ∃ rb, (runState n s).readBack = some rb ∧ rb.outputs = (runState n s).outTray)

/-- A store is seen by the very next fetch, and does not affect the STO that is running. -/
def Obligations.StoreIsSeenByTheNextFetch : Prop :=
  ∀ (s : State) (a : Addr), s.enabled = true → s.nextInstr = .sto a →
    ∃ t, step s = .next t ∧ t.fault = none ∧ t.halted = false ∧
      (a = nextAddr s.pc → t.nextInstr = decode s.acc) ∧
      (a = s.pc → t.mem.read s.pc = s.acc ∧ t.ir = s.mem.read s.pc ∧ t.pc = nextAddr s.pc)

/-- The engine is deterministic in its observable state (rule R114): two engines that agree on memory, PC, ACC, NEG, the
trays, HALTED and FAULT, under one BRP polarity, step to engines that agree again, and every run of theirs ends alike. -/
def Obligations.OutcomeDependsOnObservableStateAlone : Prop :=
  ∀ s s' : State, s.SameObservables s' →
    (∀ t, s.cycles = s'.cycles → step s = .next t → ∃ t', step s' = .next t' ∧ t.SameObservables t') ∧
    (∀ n, (run n s).1 = (run n s').1 ∧ (runState n s).SameObservables (runState n s'))

/-- IR and the fetch address are not read before a fetch writes them, so their reset values (log entry 3) show nowhere. -/
def Obligations.IrIsNotReadBeforeAFetch : Prop :=
  ∀ (s : State) (w : Word) (a : Addr), s.enabled = true → step { s with ir := w, fetchAddr := a } = step s

/-- No program can observe `cell_encoding`. -/
def Obligations.CellEncodingIsUnobservable : Prop :=
  ∀ (s t : State) (e : CellEncoding), step s = .next t →
    step { s with params := { s.params with cellEncoding := e } } =
      .next { t with params := { t.params with cellEncoding := e } }

/-- No step changes a parameter, and `AddressOutOfRange` is raised nowhere. -/
def Obligations.StepKeepsParametersAndNeverRaisesAddressFault : Prop :=
  ∀ s t : State, step s = .next t →
    t.params = s.params ∧ ∀ r, t.fault = some r → r.kind ≠ .addressOutOfRange

/-- The invariant: every step keeps the memory's canonical form, and a faulted engine is not halted and holds a record of
a kind the engine raises, with the number of the step after the last counted one. That number is the spec's decision D10
(log entry 9), and that memory, HALTED and CYCLES are kept by a faulting step is the model's choice (log entry 7). -/
def Obligations.EveryStepKeepsTheInvariant : Prop :=
  ∀ s t : State, s.Inv → step s = .next t → t.Inv

/-- The invariant holds right after reset. -/
def Obligations.ResetMeetsTheInvariant : Prop :=
  State.reset.Inv

/-- Memories in canonical form that read alike are the same data. -/
def Obligations.CanonicalMemoriesAreEqualWhenTheyReadAlike : Prop :=
  ∀ m m' : Memory, m.wf → m'.wf → (∀ a, m.read a = m'.read a) → m = m'

/-! ## Reset and the host (70_reset_and_hazards.md) -/

/-- Reset with an image and inputs gives a fresh engine: element k in cell k, the inputs in order, PC 0, ACC and NEG at
their parameters, not halted, no fault, the output tray empty, CYCLES 0; and it meets the invariant. (ACC, NEG, HALTED,
FAULT and the output tray are the spec's decisions D2, D3, D4.) -/
def Obligations.ResetLoadsImageAndInputs : Prop :=
  ∀ (p : Params) (image inputs : List Nat) (s : State), hostReset p image inputs = .ok s →
    image.length = 100 ∧ (∀ a : Addr, image[a.val]? = some (s.mem.read a).val) ∧
    s.inTray.map Fin.val = inputs ∧ s.pc.val = 0 ∧ s.acc = p.accReset ∧ s.neg = p.negReset ∧ s.halted = false ∧
    s.fault = none ∧ s.outTray = [] ∧ s.cycles = 0 ∧ s.params = p ∧ s.Inv

/-- The loader accepts exactly images of 100 values in 0..999 with inputs in 0..999 that fit `in_capacity`. -/
def Obligations.LoaderAcceptsExactlyProperImages : Prop :=
  ∀ (p : Params) (image inputs : List Nat),
    (∃ s, hostReset p image inputs = .ok s) ↔
      image.length = 100 ∧ (∀ v ∈ image, v ≤ 999) ∧ (∀ v ∈ inputs, v ≤ 999) ∧
        ∀ c, p.inCapacity = some c → inputs.length ≤ c

/-- The values the spec gives at reset, in `State.reset` (rules R33 and R161; ACC, NEG at the default parameters). -/
def Obligations.ResetValues : Prop :=
  State.reset.pc = 0 ∧ State.reset.acc = Params.default.accReset ∧ State.reset.acc = 0 ∧
    State.reset.neg = Params.default.negReset ∧ State.reset.neg = false ∧ State.reset.halted = false ∧
    State.reset.fault = none ∧ State.reset.outTray = [] ∧ State.reset.cycles = 0

/-! ## The run controller (40_cycle.md section 2) -/

/-- `run(0)` executes nothing (rule R109), even when cell 0 holds HLT. -/
def Obligations.RunZeroExecutesNothing : Prop :=
  ∀ s : State, s.enabled = true →
    (run 0 s).1 = .budgetExceeded 0 ∧ runState 0 s = { s with cycles := 0 }

/-- What each outcome of a run says (rules R107 and R108), from an engine that can step: `Halted(n)` after n steps within
the budget, `BudgetExceeded(n)` with n the whole budget, `Fault` with the number of a step within the budget (the 1-based
number is the spec's decision D10). -/
def Obligations.RunOutcomesSayHowItEnded : Prop :=
  ∀ (s : State) (m : Nat), s.enabled = true →
    (∀ n, (run m s).1 = .halted n → 1 ≤ n ∧ n ≤ m ∧ (runState m s).halted = true ∧ (runState m s).cycles = n) ∧
    (∀ n, (run m s).1 = .budgetExceeded n → n = m ∧ (runState m s).enabled = true ∧ (runState m s).cycles = m) ∧
    (∀ r, (run m s).1 = .fault r → 1 ≤ r.cycle ∧ r.cycle ≤ m ∧ (runState m s).fault = some r ∧
      (r.kind = .invalidOpcode ∨ r.kind = .inputTrayUnderflow) ∧ (runState m s).readBack = none)

/-- Budget exhaustion is not a fault (rule R144): a run whose steps neither halt nor fault returns
`BudgetExceeded(max_cycles)`, and the engine stays in a state that can be stepped. -/
def Obligations.BudgetExhaustionCanBeStepped : Prop :=
  ∀ (s : State) (m : Nat), s.enabled = true →
    ((runState m s).enabled = true → (run m s).1 = .budgetExceeded m) ∧
    ∀ n, (run m s).1 = .budgetExceeded n →
      n = m ∧ (runState m s).fault = none ∧ ∃ t, step (runState m s) = .next t

/-- A HLT that runs as exactly the last budgeted step has halted. -/
def Obligations.HltOnTheLastBudgetedStepHalts : Prop :=
  ∀ (s : State) (m : Nat) (x : Addr), s.enabled = true → (run m s).1 = .budgetExceeded m →
    (runState m s).nextInstr = .hlt x → (run (m + 1) s).1 = .halted (m + 1)

/-- Two runs of budgets m and n, the first of which uses its budget, reach the state of one run of m + n, but for the
count of steps, which each run starts anew (the spec's decision D15). -/
def Obligations.RunsCompose : Prop :=
  ∀ (s : State) (m n : Nat), (∃ k, (run m s).1 = .budgetExceeded k) →
    (runState n (runState m s)).withoutCount = (runState (m + n) s).withoutCount

/-- A run of budget 1 is one step, and a run on a stopped engine returns at once. -/
def Obligations.RunOneIsOneStep : Prop :=
  (∀ s t : State, step { s with cycles := 0 } = .next t → runState 1 s = t) ∧
  (∀ (s : State) (n : Nat), s.fault = none → s.halted = true → (run n s).1 = .halted 0) ∧
  (∀ (s : State) (n : Nat) (r : FaultRecord), s.fault = some r → (run n s).1 = .fault r)

/-- After `Halted` or `BudgetExceeded` the host reads back the whole engine state, after `Fault` only the record (the
spec's decision D14). That an engine which was reset and never run reads back in the same way is the model's choice (log
entry 22), since rules R167 and R170 give no read there. -/
def Obligations.ReadBackAfterRun : Prop :=
  ∀ s : State,
    (∀ r, s.fault = some r → s.readBack = none ∧ s.status.fault = some r) ∧
    (s.fault = none → ∃ rb, s.readBack = some rb ∧ rb.memory.length = 100 ∧
      (∀ a : Addr, rb.memory[a.val]? = some (s.mem.read a)) ∧ rb.pc = s.pc ∧ rb.acc = s.acc ∧ rb.neg = s.neg ∧
      rb.inputsLeft = s.inTray ∧ rb.outputs = s.outTray)

/-! ## The assembler (30_encoding.md section 5) -/

/-- The image has 100 cells, and every cell that no line assigns holds 000 (rule R81). -/
def Obligations.AssembledImageHasHundredCells : Prop :=
  ∀ (source : List (List Char)) (image : List Word), assemble source = .ok image →
    image.length = 100 ∧
    (∀ (k : Nat) (p : ParsedLine), (parseLines 1 source)[k]? = some p →
      ∃ table w, passOne 0 (parseLines 1 source) [] = .ok table ∧ encodeLine table p = .ok w ∧ image[k]? = some w) ∧
    (∀ k, (parseLines 1 source).length ≤ k → k < 100 → image[k]? = some 0)

/-- A label resolves to the address of the line it stands on, whether the use comes before it or after it (rule R88). -/
def Obligations.LabelsResolveForwardAndBackward : Prop :=
  ∀ (source : List (List Char)) (image : List Word) (k j : Nat) (p q : ParsedLine) (t l : Token) (m : Mnemonic)
    (op : Fin 10),
    assemble source = .ok image →
    (parseLines 1 source)[k]? = some p → p.mnemonic = some t → mnemonicOf t = some m → classOf m = .oneOperand op →
    p.operand = some l → (parseLines 1 source)[j]? = some q → q.label = some l →
    ∃ w : Word, image[k]? = some w ∧ w.val = op.val * 100 + j

/-- A one-operand line with a literal operand encodes to opcode * 100 + address, and the word decodes to the line's
instruction; a literal above 99 has no image. -/
def Obligations.LiteralOperandLinesEncode : Prop :=
  ∀ (source : List (List Char)) (image : List Word) (k v : Nat) (p : ParsedLine) (t l : Token) (m : Mnemonic)
    (op : Fin 10),
    assemble source = .ok image →
    (parseLines 1 source)[k]? = some p → p.mnemonic = some t → mnemonicOf t = some m → classOf m = .oneOperand op →
    p.operand = some l → literalValue l = some v →
    ∃ (a : Addr) (w : Word), a.val = v ∧ image[k]? = some w ∧ w.val = op.val * 100 + v ∧
      (m = .add → decode w = .add a) ∧ (m = .sub → decode w = .sub a) ∧ (m = .sto ∨ m = .sta → decode w = .sto a) ∧
      (m = .lda → decode w = .lda a) ∧ (m = .br → decode w = .br a) ∧ (m = .brz → decode w = .brz a) ∧
      (m = .brp → decode w = .brp a)

/-- At most 100 non-empty lines (rule R77, conflict C4): the 101st raises `ProgramTooLarge`, and a source of at most 100
is never refused as too large. -/
def Obligations.ProgramOfOver100LinesIsRefused : Prop :=
  (∀ (source : List (List Char)) (image : List Word), assemble source = .ok image →
    (parseLines 1 source).length ≤ 100) ∧
  (∀ (source : List (List Char)) (p : ParsedLine) (table : SymbolTable),
    (parseLines 1 source)[100]? = some p → passOne 0 ((parseLines 1 source).take 100) [] = .ok table →
    assemble source = .error { kind := .programTooLarge, line := p.line }) ∧
  (∀ (source : List (List Char)) (e : AssemblyError), (parseLines 1 source).length ≤ 100 →
    assemble source = .error e → e.kind ≠ .programTooLarge)

/-- The aliases and the data directive (rule R89): STA as STO, COB as HLT (000), DAT as 000, DAT v as v, a line giving one
word; READ and WRITE are no mnemonics. There are no others: the mnemonics are the 13 spellings of rule R73, and two of
them are one instruction only for HLT and COB, and for STO and STA. -/
def Obligations.AliasesAndDatEncode : Prop :=
  (∀ (table : SymbolTable) (n : Nat) (label operand : Option Token) (extra : List Token),
    encodeLine table { line := n, label := label, mnemonic := some ['S', 'T', 'A'], operand := operand, extra := extra } =
      encodeLine table { line := n, label := label, mnemonic := some ['S', 'T', 'O'], operand := operand, extra := extra } ∧
    encodeLine table { line := n, label := label, mnemonic := some ['C', 'O', 'B'], operand := operand, extra := extra } =
      encodeLine table { line := n, label := label, mnemonic := some ['H', 'L', 'T'], operand := operand, extra := extra } ∧
    (∀ (a : Addr) (l : Token), resolveOperand table l = .ok a →
      encodeLine table { line := n, label := label, mnemonic := some ['S', 'T', 'A'], operand := some l, extra := [] } =
        .ok (encode (.sto a))) ∧
    encodeLine table { line := n, label := label, mnemonic := some ['C', 'O', 'B'], operand := none, extra := [] } =
      .ok 0 ∧
    encodeLine table { line := n, label := label, mnemonic := some ['D', 'A', 'T'], operand := none, extra := [] } =
      .ok 0 ∧
    ∀ (v : Word) (l : Token), literalValue l = some v.val →
      encodeLine table { line := n, label := label, mnemonic := some ['D', 'A', 'T'], operand := some l, extra := [] } =
        .ok v) ∧
  mnemonicOf ['R', 'E', 'A', 'D'] = none ∧ mnemonicOf ['W', 'R', 'I', 'T', 'E'] = none ∧
  (∀ t : Token, mnemonicOf t ≠ none ↔
    t ∈ [['H', 'L', 'T'], ['C', 'O', 'B'], ['L', 'D', 'A'], ['S', 'T', 'O'], ['S', 'T', 'A'], ['A', 'D', 'D'],
      ['S', 'U', 'B'], ['B', 'R'], ['B', 'R', 'Z'], ['B', 'R', 'P'], ['I', 'N'], ['O', 'U', 'T'], ['D', 'A', 'T']]) ∧
  ∀ (t t' : Token) (m m' : Mnemonic), mnemonicOf t = some m → mnemonicOf t' = some m' → classOf m = classOf m' →
    t = t' ∨ (t ∈ [['H', 'L', 'T'], ['C', 'O', 'B']] ∧ t' ∈ [['H', 'L', 'T'], ['C', 'O', 'B']]) ∨
      (t ∈ [['S', 'T', 'O'], ['S', 'T', 'A']] ∧ t' ∈ [['S', 'T', 'O'], ['S', 'T', 'A']])

/-! ## The batch harness -/

/-- The verdict of a run (rules R175 and R176; with R174's comparison, the spec's decision D25): a halted run without an
expected result passes; with one it passes exactly when the last output is that number, and is a mismatch otherwise,
with the last output or the want of one as the reason; a run out of budget is never a pass or a mismatch. -/
def Obligations.HarnessVerdicts : Prop :=
  (∀ (n : Nat) (outs : List Word), verdictOf none (.halted n) outs = .pass) ∧
  (∀ (n : Nat) (e : Word) (outs : List Word),
    verdictOf (some e) (.halted n) outs = .pass ↔ ∃ v, outs.getLast? = some v ∧ v.val = e.val) ∧
  (∀ (n : Nat) (e v : Word) (outs : List Word), outs.getLast? = some v → v.val ≠ e.val →
    verdictOf (some e) (.halted n) outs = .resultMismatch (.lastOutput v)) ∧
  (∀ (n : Nat) (e : Word), verdictOf (some e) (.halted n) [] = .resultMismatch .noOutputProduced) ∧
  (∀ (o : Option Word) (n : Nat) (outs : List Word), verdictOf o (.budgetExceeded n) outs = .cycleBudgetExceeded) ∧
  (∀ (o : Option Word) (r : FaultRecord) (outs : List Word), verdictOf o (.fault r) outs = .executionError r.kind)
end

