-- ==== Sys2Proof/Laws/Assembler.lean ====
section
/-!
SUPPORT. One lemma per function of the assembler: the Symbol Table, the two passes and the image.
-/

namespace Sys2Proof.Machine

/-- The spelling of a mnemonic (30_encoding.md rule R73). -/
theorem mnemonicOf_eq_some (t : Token) (m : Mnemonic) :
    mnemonicOf t = some m ↔ t = match m with
      | .hlt => ['H', 'L', 'T']
      | .cob => ['C', 'O', 'B']
      | .lda => ['L', 'D', 'A']
      | .sto => ['S', 'T', 'O']
      | .sta => ['S', 'T', 'A']
      | .add => ['A', 'D', 'D']
      | .sub => ['S', 'U', 'B']
      | .br => ['B', 'R']
      | .brz => ['B', 'R', 'Z']
      | .brp => ['B', 'R', 'P']
      | .inp => ['I', 'N']
      | .out => ['O', 'U', 'T']
      | .dat => ['D', 'A', 'T'] := by
  have row : ∀ (p : Prop) [Decidable p] (a b : Mnemonic) (r : Option Mnemonic),
      (if p then some a else r) = some b → (p ∧ a = b) ∨ r = some b := by
    intro p _ a b r h
    split at h
    · next hp => cases h; exact .inl ⟨hp, rfl⟩
    · exact .inr h
  constructor
  · intro h
    unfold mnemonicOf at h
    repeat
      obtain ⟨ht, rfl⟩ | h := row _ _ _ _ h
      · exact ht
    cases h
  · rintro rfl
    cases m <;> decide

/-- A label recorded after others is found unless an earlier entry has its name. -/
theorem lookupLabel_append (t : SymbolTable) (l l' : Token) (a : Addr) :
    lookupLabel (t ++ [(l', a)]) l =
      match lookupLabel t l with
      | some b => some b
      | none => if l' = l then some a else none := by
  induction t with
  | nil => simp [lookupLabel]
  | cons c rest ih =>
    obtain ⟨m, b⟩ := c
    simp only [List.cons_append, lookupLabel]
    split
    · rfl
    · exact ih

/-- All that one line of pass 1 can accept (30_encoding.md rule R76). -/
theorem collectLine_ok (addr : Nat) (p : ParsedLine) (t t' : SymbolTable) (h : collectLine addr p t = .ok t') :
    ∃ ha : addr < 100,
      (p.label = none ∧ t' = t) ∨
      ∃ l, p.label = some l ∧ literalValue l = none ∧ lookupLabel t l = none ∧ t' = t ++ [(l, ⟨addr, ha⟩)] := by
  unfold collectLine at h
  split at h
  · next ha =>
    refine ⟨ha, ?_⟩
    split at h
    · next hl => cases h; exact .inl ⟨hl, rfl⟩
    · next l hl =>
      split at h <;> try cases h
      next h1 h2 => exact .inr ⟨l, hl, h1, h2, rfl⟩
  · cases h

/-- A line of pass 1 keeps what is recorded. -/
theorem collectLine_keeps (addr : Nat) (p : ParsedLine) (t t' : SymbolTable) (h : collectLine addr p t = .ok t')
    (l : Token) (a : Addr) (hl : lookupLabel t l = some a) : lookupLabel t' l = some a := by
  obtain ⟨ha, ⟨-, rfl⟩ | ⟨l', -, -, -, rfl⟩⟩ := collectLine_ok addr p t t' h
  · exact hl
  · rw [lookupLabel_append, hl]

/-- Pass 1, one line at a time. -/
theorem passOne_cons_ok (addr : Nat) (p : ParsedLine) (rest : List ParsedLine) (t0 table : SymbolTable) :
    passOne addr (p :: rest) t0 = .ok table ↔
      ∃ t', collectLine addr p t0 = .ok t' ∧ passOne (addr + 1) rest t' = .ok table := by
  rw [passOne]
  cases collectLine addr p t0 with
  | error e => simp
  | ok t' => simp

/-- The rest of pass 1 keeps what is recorded. -/
theorem passOne_keeps (lines : List ParsedLine) (addr : Nat) (t0 table : SymbolTable)
    (h : passOne addr lines t0 = .ok table) (l : Token) (a : Addr) (hl : lookupLabel t0 l = some a) :
    lookupLabel table l = some a := by
  induction lines generalizing addr t0 with
  | nil => cases h; exact hl
  | cons p rest ih =>
    obtain ⟨t', h1, h2⟩ := (passOne_cons_ok addr p rest t0 table).1 h
    exact ih (addr + 1) t' h2 (collectLine_keeps addr p t0 t' h1 l a hl)

/-- Pass 2, one line at a time (rule R78). -/
theorem passTwo_cons_ok (table : SymbolTable) (p : ParsedLine) (rest : List ParsedLine) (ws : List Word) :
    passTwo table (p :: rest) = .ok ws ↔
      ∃ w ws', encodeLine table p = .ok w ∧ passTwo table rest = .ok ws' ∧ ws = w :: ws' := by
  rw [passTwo]
  cases encodeLine table p <;> cases passTwo table rest <;> simp [eq_comm]

/-- Pass 2 gives the word of each line at the line's place. -/
theorem passTwo_words (table : SymbolTable) (lines : List ParsedLine) (ws : List Word)
    (h : passTwo table lines = .ok ws) :
    ws.length = lines.length ∧
      ∀ (k : Nat) (p : ParsedLine), lines[k]? = some p → ∃ w, encodeLine table p = .ok w ∧ ws[k]? = some w := by
  induction lines generalizing ws with
  | nil => cases h; simp
  | cons p rest ih =>
    obtain ⟨w, ws', h1, h2, rfl⟩ := (passTwo_cons_ok table p rest ws).1 h
    obtain ⟨hl, hk⟩ := ih ws' h2
    refine ⟨by simp [hl], fun k q hq => ?_⟩
    cases k with
    | zero => cases hq; exact ⟨w, h1, rfl⟩
    | succ k => simpa using hk k q (by simpa using hq)

theorem resolveOperand_ne_programTooLarge (table : SymbolTable) (t : Token) :
    resolveOperand table t ≠ .error .programTooLarge := by
  unfold resolveOperand
  repeat' split
  all_goals simp

theorem dataValue_ne_programTooLarge (operand : Option Token) : dataValue operand ≠ .error .programTooLarge := by
  unfold dataValue
  repeat' split
  all_goals simp

theorem encodeClass_ne_programTooLarge (table : SymbolTable) (c : MnemonicClass) (operand : Option Token) :
    encodeClass table c operand ≠ .error .programTooLarge := by
  intro h
  unfold encodeClass at h
  split at h <;> try cases h
  · next t =>
    split at h <;> cases h
    next hr => exact resolveOperand_ne_programTooLarge table t hr
  · exact dataValue_ne_programTooLarge _ h

/-- No check of pass 2 calls a program too large: that is pass 1's alone (rules R77, R79 to R83). -/
theorem encodeLine_ne_programTooLarge (table : SymbolTable) (p : ParsedLine) :
    encodeLine table p ≠ .error .programTooLarge := by
  unfold encodeLine
  repeat' split
  all_goals first | exact encodeClass_ne_programTooLarge _ _ _ | simp

/-- Every error of pass 2 is the error of one of its lines (rule R78). -/
theorem passTwo_error (table : SymbolTable) (lines : List ParsedLine) (e : AssemblyError)
    (h : passTwo table lines = .error e) : ∃ p ∈ lines, encodeLine table p = .error e.kind ∧ e.line = p.line := by
  induction lines with
  | nil => cases h
  | cons p rest ih =>
    unfold passTwo at h
    split at h
    · next k hk => cases h; exact ⟨p, List.mem_cons_self, hk, rfl⟩
    · next hr =>
      cases h
      obtain ⟨q, hq, h'⟩ := ih hr
      exact ⟨q, List.mem_cons_of_mem _ hq, h'⟩
    · cases h

/-- A line at an address in 0..99 is never refused by pass 1 as too large (rules R76, R77). -/
theorem collectLine_error (addr : Nat) (p : ParsedLine) (t : SymbolTable) (e : AssemblyError)
    (h : collectLine addr p t = .error e) : e.line = p.line ∧ (addr < 100 → e.kind ≠ .programTooLarge) := by
  unfold collectLine at h
  split at h
  · split at h
    · cases h
    · split at h <;> cases h <;> simp
  · next ha => cases h; exact ⟨rfl, fun h' => absurd h' ha⟩

/-- All that `assemble` can accept: both passes succeed, and the image is the padded words (rules R78, R81). -/
theorem assemble_ok_iff (source : List (List Char)) (image : List Word) :
    assemble source = .ok image ↔
      ∃ table ws, passOne 0 (parseLines 1 source) [] = .ok table ∧
        passTwo table (parseLines 1 source) = .ok ws ∧ image = padImage ws := by
  unfold assemble
  constructor
  · intro h
    dsimp only at h
    split at h
    · cases h
    · next t ht =>
      split at h
      · cases h
      · next ws hw => cases h; exact ⟨t, ws, ht, hw, rfl⟩
  · rintro ⟨t, ws, h1, h2, rfl⟩
    simp [h1, h2]

end Sys2Proof.Machine
end

