-- ==== Sys2Proof/Laws/Decode.lean ====
section
/-!
SUPPORT. The digit fields of a word and the decode of a word built from an opcode digit and an operand.
-/

namespace Sys2Proof

@[simp] theorem wordOf_val (op : Fin 10) (x : Addr) : (wordOf op x).val = op.val * 100 + x.val := rfl

theorem opcodeOf_eq (w : Word) : opcodeOf w = w.val / 100 := by
  have := w.isLt
  simp only [opcodeOf, digits]
  omega

theorem operandOf_val (w : Word) : (operandOf w).val = w.val % 100 := by
  simp [operandOf, digits]

theorem opcodeOf_wordOf (op : Fin 10) (x : Addr) : opcodeOf (wordOf op x) = op.val := by
  rw [opcodeOf_eq, wordOf_val]
  omega

theorem operandOf_wordOf (op : Fin 10) (x : Addr) : operandOf (wordOf op x) = x :=
  Fin.ext (by rw [operandOf_val, wordOf_val]; omega)

/-- A word is its two fields (30_encoding.md rule R61). -/
theorem wordOf_fields (w : Word) (op : Fin 10) (h : op.val = opcodeOf w) : wordOf op (operandOf w) = w :=
  Fin.ext (by rw [wordOf_val, operandOf_val, h, opcodeOf_eq]; omega)

/-- The decode of `opcode * 100 + operand`, by the opcode digit (rule R64). -/
theorem decode_wordOf (op : Fin 10) (x : Addr) :
    decode (wordOf op x) =
      match op.val with
      | 0 => .hlt x
      | 1 => .add x
      | 2 => .sub x
      | 3 => .sto x
      | 4 => .illegalFour x
      | 5 => .lda x
      | 6 => .br x
      | 7 => .brz x
      | 8 => .brp x
      | _ => decodeNine x := by
  simp only [decode, opcodeOf_wordOf, operandOf_wordOf] <;> rfl

/-- Opcode 9 with an operand from 03 on (rule R104). -/
theorem decodeNine_other (x : Addr) (h : 3 ≤ x.val) : decodeNine x = .illegalNineOther x := by
  have h0 : x.val ≠ 0 := by omega
  have h1 : x.val ≠ 1 := by omega
  have h2 : x.val ≠ 2 := by omega
  simp only [decodeNine, h0, h1, h2, if_false]

/-- What `wordOfNumber` answers. -/
theorem wordOfNumber_ok_iff (n : Nat) (w : Word) : wordOfNumber n = .ok w ↔ n = w.val := by
  unfold wordOfNumber
  constructor
  · intro h
    split at h
    · cases h; rfl
    · cases h
  · rintro rfl
    simp [w.isLt]

end Sys2Proof
end

