-- ==== Sys2Proof/Laws/Memory.lean ====
section
/-!
SUPPORT. The laws of the mailbox memory: read after write, the canonical form kept by every operation, equal contents
are equal lists, and what a loaded image reads as.
-/

namespace Sys2Proof.Machine

@[simp] theorem Memory.read_nil (a : Addr) : Memory.read [] a = unlisted := rfl

theorem Memory.read_cons (b a : Addr) (v : Word) (m : Memory) :
    Memory.read ((b, v) :: m) a = if b = a then v else Memory.read m a := rfl

@[simp] theorem Memory.read_insert_same (a : Addr) (v : Word) (m : Memory) (h : ∀ c ∈ m, c.1 ≠ a) :
    (Memory.insert a v m).read a = v := by
  induction m with
  | nil => simp [Memory.insert, Memory.read_cons]
  | cons c rest ih =>
    obtain ⟨b, w⟩ := c
    have hb : b ≠ a := h (b, w) (by simp)
    by_cases hab : a < b
    · simp [Memory.insert, hab, Memory.read_cons]
    · simp [Memory.insert, hab, Memory.read_cons, hb, ih (fun c hc => h c (by simp [hc]))]

@[simp] theorem Memory.read_insert_other (a b : Addr) (v : Word) (m : Memory) (h : b ≠ a) :
    (Memory.insert a v m).read b = m.read b := by
  induction m with
  | nil => simp [Memory.insert, Memory.read_cons, h.symm]
  | cons c rest ih =>
    obtain ⟨d, w⟩ := c
    by_cases had : a < d
    · simp [Memory.insert, had, Memory.read_cons, h.symm]
    · simp [Memory.insert, had, Memory.read_cons, ih]

theorem Memory.remove_cons (a b : Addr) (w : Word) (m : Memory) :
    Memory.remove a ((b, w) :: m) = if b = a then Memory.remove a m else (b, w) :: Memory.remove a m := by
  by_cases h : b = a <;> simp [Memory.remove, h]

@[simp] theorem Memory.read_remove_same (a : Addr) (m : Memory) : (Memory.remove a m).read a = unlisted := by
  induction m with
  | nil => rfl
  | cons c rest ih =>
    obtain ⟨b, w⟩ := c
    by_cases hb : b = a <;> simp [Memory.remove_cons, hb, Memory.read_cons, ih]

@[simp] theorem Memory.read_remove_other (a b : Addr) (m : Memory) (h : b ≠ a) :
    (Memory.remove a m).read b = m.read b := by
  induction m with
  | nil => rfl
  | cons c rest ih =>
    obtain ⟨d, w⟩ := c
    by_cases hd : d = a
    · simp [Memory.remove_cons, hd, Memory.read_cons, h.symm, ih]
    · simp [Memory.remove_cons, hd, Memory.read_cons, ih]

theorem Memory.not_mem_remove (a : Addr) (m : Memory) : ∀ c ∈ Memory.remove a m, c.1 ≠ a := by
  intro c hc
  simpa [Memory.remove] using (List.mem_filter.1 hc).2

/-- A read after a write to the same mailbox gives the value written, in every memory. -/
@[simp] theorem Memory.read_write_same (m : Memory) (a : Addr) (v : Word) : (m.write a v).read a = v := by
  unfold Memory.write
  split
  · next h => simp [h]
  · exact Memory.read_insert_same a v _ (Memory.not_mem_remove a m)

/-- A write leaves every other mailbox alone, in every memory. -/
@[simp] theorem Memory.read_write_other (m : Memory) (a b : Addr) (v : Word) (h : b ≠ a) :
    (m.write a v).read b = m.read b := by
  unfold Memory.write
  split <;> simp [h]

/-! The canonical form. -/

theorem Memory.mem_insert (a : Addr) (v : Word) (m : Memory) (c : Mailbox) :
    c ∈ Memory.insert a v m ↔ c = (a, v) ∨ c ∈ m := by
  induction m with
  | nil => simp [Memory.insert]
  | cons d rest ih =>
    obtain ⟨b, w⟩ := d
    by_cases hab : a < b
    · simp [Memory.insert, hab]
    · simp only [Memory.insert, hab, if_false, List.mem_cons, ih]
      tauto

/-- The canonical form, cell by cell. -/
theorem Memory.wf_iff (m : Memory) :
    m.wf ↔ m.Pairwise (fun x y => x.1 < y.1) ∧ ∀ c ∈ m, c.2 ≠ unlisted := by
  refine and_congr Iff.rfl ⟨fun h c hc e => h (List.mem_map.2 ⟨c, hc, e⟩), fun h hu => ?_⟩
  obtain ⟨c, hc, e⟩ := List.mem_map.1 hu
  exact h c hc e

theorem Memory.wf_nil : Memory.wf [] := ⟨List.Pairwise.nil, by simp⟩

theorem Memory.wf_remove (a : Addr) (m : Memory) (h : m.wf) : (Memory.remove a m).wf :=
  (Memory.wf_iff _).2
    ⟨h.1.filter _, fun c hc => ((Memory.wf_iff m).1 h).2 c (List.mem_filter.1 hc).1⟩

theorem Memory.wf_insert (a : Addr) (v : Word) (m : Memory) (h : m.wf) (ha : ∀ c ∈ m, c.1 ≠ a) (hv : v ≠ unlisted) :
    (Memory.insert a v m).wf := by
  rw [Memory.wf_iff] at h ⊢
  refine ⟨?_, fun c hc => ?_⟩
  · obtain ⟨hp, -⟩ := h
    induction m with
    | nil => simp [Memory.insert]
    | cons d rest ih =>
      obtain ⟨b, w⟩ := d
      rw [List.pairwise_cons] at hp
      by_cases hab : a < b
      · simp only [Memory.insert, hab, if_true, List.pairwise_cons]
        refine ⟨fun c hc => ?_, hp⟩
        rcases List.mem_cons.1 hc with rfl | hc
        · exact hab
        · exact hab.trans (hp.1 c hc)
      · have hba : b < a := lt_of_le_of_ne (not_lt.1 hab) (ha (b, w) (by simp))
        simp only [Memory.insert, hab, if_false, List.pairwise_cons]
        refine ⟨fun c hc => ?_, ih (fun c hc => ha c (by simp [hc])) hp.2⟩
        rcases (Memory.mem_insert a v rest c).1 hc with rfl | hc
        · exact hba
        · exact hp.1 c hc
  · rcases (Memory.mem_insert a v m c).1 hc with rfl | hc
    · exact hv
    · exact h.2 c hc

/-- Every write keeps the canonical form. -/
theorem Memory.wf_write (m : Memory) (a : Addr) (v : Word) (h : m.wf) : (m.write a v).wf := by
  unfold Memory.write
  split
  · exact Memory.wf_remove a m h
  · next hv => exact Memory.wf_insert a v _ (Memory.wf_remove a m h) (Memory.not_mem_remove a m) hv

theorem Memory.read_eq_unlisted_of_not_mem (m : Memory) (a : Addr) (h : ∀ c ∈ m, c.1 ≠ a) : m.read a = unlisted := by
  induction m with
  | nil => rfl
  | cons d rest ih =>
    obtain ⟨b, w⟩ := d
    have hb : b ≠ a := h (b, w) (by simp)
    simp [Memory.read_cons, hb, ih (fun c hc => h c (by simp [hc]))]

theorem Memory.loadFrom_addr_ge (k : Nat) (words : List Word) : ∀ c ∈ Memory.loadFrom k words, k ≤ c.1.val := by
  induction words generalizing k with
  | nil => simp [Memory.loadFrom]
  | cons v rest ih =>
    intro c hc
    unfold Memory.loadFrom at hc
    split at hc
    · split at hc
      · exact (Nat.le_succ k).trans (ih (k + 1) c hc)
      · rcases List.mem_cons.1 hc with rfl | hc
        · exact le_rfl
        · exact (Nat.le_succ k).trans (ih (k + 1) c hc)
    · simp at hc

/-- A loaded image is in canonical form. -/
theorem Memory.wf_loadFrom (k : Nat) (words : List Word) : (Memory.loadFrom k words).wf := by
  induction words generalizing k with
  | nil => exact Memory.wf_nil
  | cons v rest ih =>
    unfold Memory.loadFrom
    split
    · split
      · exact ih (k + 1)
      · next hv =>
        refine (Memory.wf_iff _).2 ⟨List.pairwise_cons.2 ⟨fun c hc => ?_, (ih (k + 1)).1⟩, fun c hc => ?_⟩
        · exact Fin.lt_def.2 (Memory.loadFrom_addr_ge (k + 1) rest c hc)
        · rcases List.mem_cons.1 hc with rfl | hc
          · exact hv
          · exact ((Memory.wf_iff _).1 (ih (k + 1))).2 c hc
    · exact Memory.wf_nil

theorem Memory.wf_ofImage (image : List Word) : (Memory.ofImage image).wf :=
  Memory.wf_loadFrom 0 image

/-- What a loaded list reads as: the cells from `k` on hold the words, in order. -/
theorem Memory.read_loadFrom (k : Nat) (words : List Word) (a : Addr) (h : k ≤ a.val) :
    (Memory.loadFrom k words).read a = words.getD (a.val - k) unlisted := by
  induction words generalizing k with
  | nil => simp [Memory.loadFrom]
  | cons v rest ih =>
    have hk : k < 100 := lt_of_le_of_lt h a.isLt
    rcases Nat.eq_or_lt_of_le h with hka | hka
    · have ha : a = ⟨k, hk⟩ := Fin.ext hka.symm
      have hrest : (Memory.loadFrom (k + 1) rest).read a = unlisted :=
        Memory.read_eq_unlisted_of_not_mem _ _ fun c hc hca => by
          have := Memory.loadFrom_addr_ge (k + 1) rest c hc
          rw [hca] at this
          omega
      unfold Memory.loadFrom
      rw [dif_pos hk]
      split
      · next hv => rw [hrest, hv, hka]; simp
      · rw [Memory.read_cons, if_pos ha.symm]; simp [hka]
    · have ha : (⟨k, hk⟩ : Addr) ≠ a := fun e => by simp [← e] at hka
      have hsub : a.val - k = (a.val - (k + 1)) + 1 := by omega
      unfold Memory.loadFrom
      rw [dif_pos hk]
      split
      · rw [ih (k + 1) hka, hsub]; rfl
      · rw [Memory.read_cons, if_neg ha, ih (k + 1) hka, hsub]; rfl

/-- Element `a` of the image is cell `a` (rule R163). -/
theorem Memory.read_ofImage (image : List Word) (a : Addr) :
    (Memory.ofImage image).read a = image.getD a.val unlisted :=
  Memory.read_loadFrom 0 image a (Nat.zero_le _)

end Sys2Proof.Machine
end

