-- ==== Sys2Proof/Laws/Host.lean ====
section
/-!
SUPPORT. What the loader and the read-back answer, said once.
-/

namespace Sys2Proof.Machine

/-- The words of a list of numbers are those numbers. -/
theorem wordsOfNumbers_val (ns : List Nat) (ws : List Word) (h : wordsOfNumbers ns = .ok ws) : ws.map Fin.val = ns := by
  induction ns generalizing ws with
  | nil => cases h; rfl
  | cons n rest ih =>
    unfold wordsOfNumbers at h
    split at h <;> try cases h
    next w ws' h1 h2 =>
      unfold wordOfNumber at h1
      split at h1 <;> cases h1
      simp [ih _ h2]

/-- All that `hostReset` can accept, and the engine it then gives. -/
theorem hostReset_ok_iff (p : Params) (image inputs : List Nat) (s : State) :
    hostReset p image inputs = .ok s ↔
      image.length = 100 ∧ ∃ img ins, wordsOfNumbers image = .ok img ∧ wordsOfNumbers inputs = .ok ins ∧
        capacityAdmits p.inCapacity ins.length = true ∧ s = State.fresh p (Memory.ofImage img) ins := by
  unfold hostReset
  constructor
  · intro h
    split at h
    · cases h
    · next hl =>
      split at h
      · cases h
      · cases h
      · next img ins h1 h2 =>
        split at h
        · next hc => cases h; exact ⟨by omega, img, ins, h1, h2, hc, rfl⟩
        · cases h
  · rintro ⟨hl, img, ins, h1, h2, hc, rfl⟩
    simp [hl, h1, h2, hc]

@[simp] theorem Memory.toImage_length (m : Memory) : m.toImage.length = 100 := by
  simp [Memory.toImage]

theorem Memory.toImage_getElem? (m : Memory) (a : Addr) : m.toImage[a.val]? = some (m.read a) := by
  simp [Memory.toImage]

end Sys2Proof.Machine
end

