-- ==== Sys2Proof/Laws/State.lean ====
section
/-!
SUPPORT. One lemma per field per named update of the state, so that no proof unfolds a record update; and the fields of
a fresh engine.
-/

namespace Sys2Proof.Machine

section
variable (s : State) (v : Word)
@[simp] theorem State.setAcc_params : (s.setAcc v).params = s.params := rfl
@[simp] theorem State.setAcc_mem : (s.setAcc v).mem = s.mem := rfl
@[simp] theorem State.setAcc_pc : (s.setAcc v).pc = s.pc := rfl
@[simp] theorem State.setAcc_ir : (s.setAcc v).ir = s.ir := rfl
@[simp] theorem State.setAcc_fetchAddr : (s.setAcc v).fetchAddr = s.fetchAddr := rfl
@[simp] theorem State.setAcc_acc : (s.setAcc v).acc = v := rfl
@[simp] theorem State.setAcc_neg : (s.setAcc v).neg = s.neg := rfl
@[simp] theorem State.setAcc_halted : (s.setAcc v).halted = s.halted := rfl
@[simp] theorem State.setAcc_fault : (s.setAcc v).fault = s.fault := rfl
@[simp] theorem State.setAcc_inTray : (s.setAcc v).inTray = s.inTray := rfl
@[simp] theorem State.setAcc_outTray : (s.setAcc v).outTray = s.outTray := rfl
@[simp] theorem State.setAcc_cycles : (s.setAcc v).cycles = s.cycles := rfl
end

section
variable (s : State) (b : Bool)
@[simp] theorem State.setNeg_params : (s.setNeg b).params = s.params := rfl
@[simp] theorem State.setNeg_mem : (s.setNeg b).mem = s.mem := rfl
@[simp] theorem State.setNeg_pc : (s.setNeg b).pc = s.pc := rfl
@[simp] theorem State.setNeg_ir : (s.setNeg b).ir = s.ir := rfl
@[simp] theorem State.setNeg_fetchAddr : (s.setNeg b).fetchAddr = s.fetchAddr := rfl
@[simp] theorem State.setNeg_acc : (s.setNeg b).acc = s.acc := rfl
@[simp] theorem State.setNeg_neg : (s.setNeg b).neg = b := rfl
@[simp] theorem State.setNeg_halted : (s.setNeg b).halted = s.halted := rfl
@[simp] theorem State.setNeg_fault : (s.setNeg b).fault = s.fault := rfl
@[simp] theorem State.setNeg_inTray : (s.setNeg b).inTray = s.inTray := rfl
@[simp] theorem State.setNeg_outTray : (s.setNeg b).outTray = s.outTray := rfl
@[simp] theorem State.setNeg_cycles : (s.setNeg b).cycles = s.cycles := rfl
end

section
variable (s : State) (a : Addr)
@[simp] theorem State.setPc_params : (s.setPc a).params = s.params := rfl
@[simp] theorem State.setPc_mem : (s.setPc a).mem = s.mem := rfl
@[simp] theorem State.setPc_pc : (s.setPc a).pc = a := rfl
@[simp] theorem State.setPc_ir : (s.setPc a).ir = s.ir := rfl
@[simp] theorem State.setPc_fetchAddr : (s.setPc a).fetchAddr = s.fetchAddr := rfl
@[simp] theorem State.setPc_acc : (s.setPc a).acc = s.acc := rfl
@[simp] theorem State.setPc_neg : (s.setPc a).neg = s.neg := rfl
@[simp] theorem State.setPc_halted : (s.setPc a).halted = s.halted := rfl
@[simp] theorem State.setPc_fault : (s.setPc a).fault = s.fault := rfl
@[simp] theorem State.setPc_inTray : (s.setPc a).inTray = s.inTray := rfl
@[simp] theorem State.setPc_outTray : (s.setPc a).outTray = s.outTray := rfl
@[simp] theorem State.setPc_cycles : (s.setPc a).cycles = s.cycles := rfl
end

section
variable (s : State)
@[simp] theorem State.halt_params : (s.halt).params = s.params := rfl
@[simp] theorem State.halt_mem : (s.halt).mem = s.mem := rfl
@[simp] theorem State.halt_pc : (s.halt).pc = s.pc := rfl
@[simp] theorem State.halt_ir : (s.halt).ir = s.ir := rfl
@[simp] theorem State.halt_fetchAddr : (s.halt).fetchAddr = s.fetchAddr := rfl
@[simp] theorem State.halt_acc : (s.halt).acc = s.acc := rfl
@[simp] theorem State.halt_neg : (s.halt).neg = s.neg := rfl
@[simp] theorem State.halt_halted : (s.halt).halted = true := rfl
@[simp] theorem State.halt_fault : (s.halt).fault = s.fault := rfl
@[simp] theorem State.halt_inTray : (s.halt).inTray = s.inTray := rfl
@[simp] theorem State.halt_outTray : (s.halt).outTray = s.outTray := rfl
@[simp] theorem State.halt_cycles : (s.halt).cycles = s.cycles := rfl
end

section
variable (s : State) (a : Addr) (v : Word)
@[simp] theorem State.writeCell_params : (s.writeCell a v).params = s.params := rfl
@[simp] theorem State.writeCell_mem : (s.writeCell a v).mem = s.mem.write a v := rfl
@[simp] theorem State.writeCell_pc : (s.writeCell a v).pc = s.pc := rfl
@[simp] theorem State.writeCell_ir : (s.writeCell a v).ir = s.ir := rfl
@[simp] theorem State.writeCell_fetchAddr : (s.writeCell a v).fetchAddr = s.fetchAddr := rfl
@[simp] theorem State.writeCell_acc : (s.writeCell a v).acc = s.acc := rfl
@[simp] theorem State.writeCell_neg : (s.writeCell a v).neg = s.neg := rfl
@[simp] theorem State.writeCell_halted : (s.writeCell a v).halted = s.halted := rfl
@[simp] theorem State.writeCell_fault : (s.writeCell a v).fault = s.fault := rfl
@[simp] theorem State.writeCell_inTray : (s.writeCell a v).inTray = s.inTray := rfl
@[simp] theorem State.writeCell_outTray : (s.writeCell a v).outTray = s.outTray := rfl
@[simp] theorem State.writeCell_cycles : (s.writeCell a v).cycles = s.cycles := rfl
end

section
variable (s : State) (vs : List Word)
@[simp] theorem State.setInTray_params : (s.setInTray vs).params = s.params := rfl
@[simp] theorem State.setInTray_mem : (s.setInTray vs).mem = s.mem := rfl
@[simp] theorem State.setInTray_pc : (s.setInTray vs).pc = s.pc := rfl
@[simp] theorem State.setInTray_ir : (s.setInTray vs).ir = s.ir := rfl
@[simp] theorem State.setInTray_fetchAddr : (s.setInTray vs).fetchAddr = s.fetchAddr := rfl
@[simp] theorem State.setInTray_acc : (s.setInTray vs).acc = s.acc := rfl
@[simp] theorem State.setInTray_neg : (s.setInTray vs).neg = s.neg := rfl
@[simp] theorem State.setInTray_halted : (s.setInTray vs).halted = s.halted := rfl
@[simp] theorem State.setInTray_fault : (s.setInTray vs).fault = s.fault := rfl
@[simp] theorem State.setInTray_inTray : (s.setInTray vs).inTray = vs := rfl
@[simp] theorem State.setInTray_outTray : (s.setInTray vs).outTray = s.outTray := rfl
@[simp] theorem State.setInTray_cycles : (s.setInTray vs).cycles = s.cycles := rfl
end

section
variable (s : State) (v : Word)
@[simp] theorem State.outPush_params : (s.outPush v).params = s.params := rfl
@[simp] theorem State.outPush_mem : (s.outPush v).mem = s.mem := rfl
@[simp] theorem State.outPush_pc : (s.outPush v).pc = s.pc := rfl
@[simp] theorem State.outPush_ir : (s.outPush v).ir = s.ir := rfl
@[simp] theorem State.outPush_fetchAddr : (s.outPush v).fetchAddr = s.fetchAddr := rfl
@[simp] theorem State.outPush_acc : (s.outPush v).acc = s.acc := rfl
@[simp] theorem State.outPush_neg : (s.outPush v).neg = s.neg := rfl
@[simp] theorem State.outPush_halted : (s.outPush v).halted = s.halted := rfl
@[simp] theorem State.outPush_fault : (s.outPush v).fault = s.fault := rfl
@[simp] theorem State.outPush_inTray : (s.outPush v).inTray = s.inTray := rfl
@[simp] theorem State.outPush_outTray : (s.outPush v).outTray = s.outTray ++ [v] := rfl
@[simp] theorem State.outPush_cycles : (s.outPush v).cycles = s.cycles := rfl
end

section
variable (s : State) (k : FaultKind)
@[simp] theorem State.raise_params : (s.raise k).params = s.params := rfl
@[simp] theorem State.raise_mem : (s.raise k).mem = s.mem := rfl
@[simp] theorem State.raise_pc : (s.raise k).pc = s.pc := rfl
@[simp] theorem State.raise_ir : (s.raise k).ir = s.ir := rfl
@[simp] theorem State.raise_fetchAddr : (s.raise k).fetchAddr = s.fetchAddr := rfl
@[simp] theorem State.raise_acc : (s.raise k).acc = s.acc := rfl
@[simp] theorem State.raise_neg : (s.raise k).neg = s.neg := rfl
@[simp] theorem State.raise_halted : (s.raise k).halted = s.halted := rfl
@[simp] theorem State.raise_fault : (s.raise k).fault = some { kind := k, cycle := s.cycles + 1, mailbox := s.fetchAddr } := rfl
@[simp] theorem State.raise_inTray : (s.raise k).inTray = s.inTray := rfl
@[simp] theorem State.raise_outTray : (s.raise k).outTray = s.outTray := rfl
@[simp] theorem State.raise_cycles : (s.raise k).cycles = s.cycles := rfl
end

section
variable (s : State)
@[simp] theorem State.fetch_params : (s.fetch).params = s.params := rfl
@[simp] theorem State.fetch_mem : (s.fetch).mem = s.mem := rfl
@[simp] theorem State.fetch_pc : (s.fetch).pc = nextAddr s.pc := rfl
@[simp] theorem State.fetch_ir : (s.fetch).ir = s.mem.read s.pc := rfl
@[simp] theorem State.fetch_fetchAddr : (s.fetch).fetchAddr = s.pc := rfl
@[simp] theorem State.fetch_acc : (s.fetch).acc = s.acc := rfl
@[simp] theorem State.fetch_neg : (s.fetch).neg = s.neg := rfl
@[simp] theorem State.fetch_halted : (s.fetch).halted = s.halted := rfl
@[simp] theorem State.fetch_fault : (s.fetch).fault = s.fault := rfl
@[simp] theorem State.fetch_inTray : (s.fetch).inTray = s.inTray := rfl
@[simp] theorem State.fetch_outTray : (s.fetch).outTray = s.outTray := rfl
@[simp] theorem State.fetch_cycles : (s.fetch).cycles = s.cycles := rfl
end

section
variable (s : State)
@[simp] theorem State.countCycle_params : (s.countCycle).params = s.params := rfl
@[simp] theorem State.countCycle_mem : (s.countCycle).mem = s.mem := rfl
@[simp] theorem State.countCycle_pc : (s.countCycle).pc = s.pc := rfl
@[simp] theorem State.countCycle_ir : (s.countCycle).ir = s.ir := rfl
@[simp] theorem State.countCycle_fetchAddr : (s.countCycle).fetchAddr = s.fetchAddr := rfl
@[simp] theorem State.countCycle_acc : (s.countCycle).acc = s.acc := rfl
@[simp] theorem State.countCycle_neg : (s.countCycle).neg = s.neg := rfl
@[simp] theorem State.countCycle_halted : (s.countCycle).halted = s.halted := rfl
@[simp] theorem State.countCycle_fault : (s.countCycle).fault = s.fault := rfl
@[simp] theorem State.countCycle_inTray : (s.countCycle).inTray = s.inTray := rfl
@[simp] theorem State.countCycle_outTray : (s.countCycle).outTray = s.outTray := rfl
@[simp] theorem State.countCycle_cycles : (s.countCycle).cycles = s.cycles + 1 := rfl
end

section
variable (s : State)
@[simp] theorem State.startRun_params : (s.startRun).params = s.params := rfl
@[simp] theorem State.startRun_mem : (s.startRun).mem = s.mem := rfl
@[simp] theorem State.startRun_pc : (s.startRun).pc = s.pc := rfl
@[simp] theorem State.startRun_ir : (s.startRun).ir = s.ir := rfl
@[simp] theorem State.startRun_fetchAddr : (s.startRun).fetchAddr = s.fetchAddr := rfl
@[simp] theorem State.startRun_acc : (s.startRun).acc = s.acc := rfl
@[simp] theorem State.startRun_neg : (s.startRun).neg = s.neg := rfl
@[simp] theorem State.startRun_halted : (s.startRun).halted = s.halted := rfl
@[simp] theorem State.startRun_fault : (s.startRun).fault = s.fault := rfl
@[simp] theorem State.startRun_inTray : (s.startRun).inTray = s.inTray := rfl
@[simp] theorem State.startRun_outTray : (s.startRun).outTray = s.outTray := rfl
@[simp] theorem State.startRun_cycles : (s.startRun).cycles = 0 := rfl
end

section
variable (p : Params) (m : Memory) (ins : List Word)
@[simp] theorem State.fresh_params : (State.fresh p m ins).params = p := rfl
@[simp] theorem State.fresh_mem : (State.fresh p m ins).mem = m := rfl
@[simp] theorem State.fresh_pc : (State.fresh p m ins).pc = 0 := rfl
@[simp] theorem State.fresh_ir : (State.fresh p m ins).ir = 0 := rfl
@[simp] theorem State.fresh_fetchAddr : (State.fresh p m ins).fetchAddr = 0 := rfl
@[simp] theorem State.fresh_acc : (State.fresh p m ins).acc = p.accReset := rfl
@[simp] theorem State.fresh_neg : (State.fresh p m ins).neg = p.negReset := rfl
@[simp] theorem State.fresh_halted : (State.fresh p m ins).halted = false := rfl
@[simp] theorem State.fresh_fault : (State.fresh p m ins).fault = none := rfl
@[simp] theorem State.fresh_inTray : (State.fresh p m ins).inTray = ins := rfl
@[simp] theorem State.fresh_outTray : (State.fresh p m ins).outTray = [] := rfl
@[simp] theorem State.fresh_cycles : (State.fresh p m ins).cycles = 0 := rfl
end

section
variable (s : State) (taken : Bool) (a : Addr)
@[simp] theorem State.branchIf_params : (s.branchIf taken a).params = s.params := rfl
@[simp] theorem State.branchIf_mem : (s.branchIf taken a).mem = s.mem := rfl
@[simp] theorem State.branchIf_pc : (s.branchIf taken a).pc = if taken then a else s.pc := rfl
@[simp] theorem State.branchIf_ir : (s.branchIf taken a).ir = s.ir := rfl
@[simp] theorem State.branchIf_fetchAddr : (s.branchIf taken a).fetchAddr = s.fetchAddr := rfl
@[simp] theorem State.branchIf_acc : (s.branchIf taken a).acc = s.acc := rfl
@[simp] theorem State.branchIf_neg : (s.branchIf taken a).neg = s.neg := rfl
@[simp] theorem State.branchIf_halted : (s.branchIf taken a).halted = s.halted := rfl
@[simp] theorem State.branchIf_fault : (s.branchIf taken a).fault = s.fault := rfl
@[simp] theorem State.branchIf_inTray : (s.branchIf taken a).inTray = s.inTray := rfl
@[simp] theorem State.branchIf_outTray : (s.branchIf taken a).outTray = s.outTray := rfl
@[simp] theorem State.branchIf_cycles : (s.branchIf taken a).cycles = s.cycles := rfl
end

section
variable (s : State)
@[simp] theorem State.completeStep_params : s.completeStep.params = s.params := by
  unfold State.completeStep; split <;> rfl
@[simp] theorem State.completeStep_mem : s.completeStep.mem = s.mem := by
  unfold State.completeStep; split <;> rfl
@[simp] theorem State.completeStep_pc : s.completeStep.pc = s.pc := by
  unfold State.completeStep; split <;> rfl
@[simp] theorem State.completeStep_ir : s.completeStep.ir = s.ir := by
  unfold State.completeStep; split <;> rfl
@[simp] theorem State.completeStep_fetchAddr : s.completeStep.fetchAddr = s.fetchAddr := by
  unfold State.completeStep; split <;> rfl
@[simp] theorem State.completeStep_acc : s.completeStep.acc = s.acc := by
  unfold State.completeStep; split <;> rfl
@[simp] theorem State.completeStep_neg : s.completeStep.neg = s.neg := by
  unfold State.completeStep; split <;> rfl
@[simp] theorem State.completeStep_halted : s.completeStep.halted = s.halted := by
  unfold State.completeStep; split <;> rfl
@[simp] theorem State.completeStep_fault : s.completeStep.fault = s.fault := by
  unfold State.completeStep; split <;> rfl
@[simp] theorem State.completeStep_inTray : s.completeStep.inTray = s.inTray := by
  unfold State.completeStep; split <;> rfl
@[simp] theorem State.completeStep_outTray : s.completeStep.outTray = s.outTray := by
  unfold State.completeStep; split <;> rfl
theorem State.completeStep_cycles :
    s.completeStep.cycles = if s.fault = none then s.cycles + 1 else s.cycles := by
  unfold State.completeStep; cases h : s.fault <;> simp
end

end Sys2Proof.Machine
end

