-- ==== Sys2Proof/Laws/Ops.lean ====
section
/-!
SUPPORT. One lemma per shared operation that says what it does: the arithmetic unit, the operand forms, the pop, the
enabling condition and the end of a step.
-/

namespace Sys2Proof.Machine

@[simp] theorem wordMod_val (n : Nat) : (wordMod n).val = n % 1000 := rfl

@[simp] theorem nextAddr_val (a : Addr) : (nextAddr a).val = (a.val + 1) % 100 := rfl

@[simp] theorem sumWord_val (acc m : Word) : (sumWord acc m).val = (acc.val + m.val) % 1000 := rfl

/-- NEG after SUB: the accumulator is below the operand (42_arithmetic.md rules R120, R121). -/
@[simp] theorem borrowFlag_iff (acc m : Word) : borrowFlag acc m = true ↔ acc.val < m.val := by
  simp [borrowFlag, rawDifference]

/-- ACC after SUB, in natural numbers (rule R121). -/
theorem differenceWord_val (acc m : Word) :
    (differenceWord acc m).val = if acc.val < m.val then acc.val + 1000 - m.val else acc.val - m.val := by
  have := acc.isLt
  have := m.isLt
  unfold differenceWord wordOfInt rawDifference
  by_cases h : acc.val < m.val
  · rw [if_pos (by omega), if_pos h, wordMod_val]
    omega
  · rw [if_neg (by omega), if_neg h, wordMod_val]
    omega

@[simp] theorem zeroCondition_iff (acc : Word) : zeroCondition acc = true ↔ acc = 0 := by
  simp [zeroCondition]

@[simp] theorem brpCondition_nonNegative (b : Bool) : brpCondition .nonNegative b = !b := rfl

@[simp] theorem brpCondition_negativeSet (b : Bool) : brpCondition .negativeSet b = b := rfl

/-- BRP's condition, under either polarity (44_branch.md rule R132). -/
theorem brpCondition_iff (p : BrpPolarity) (b : Bool) : brpCondition p b = true ↔ (p = .nonNegative ↔ b = false) := by
  cases p <;> simp

/-- Direct addressing (30_encoding.md rule R63). -/
@[simp] theorem effectiveAddr_eq (a : Addr) : effectiveAddr a = a := rfl

@[simp] theorem State.readOperand_eq (s : State) (a : Addr) : s.readOperand a = s.mem.read a := rfl

@[simp] theorem State.writeOperand_eq (s : State) (a : Addr) (v : Word) : s.writeOperand a v = s.writeCell a v := rfl

theorem State.branchIf_eq (s : State) (taken : Bool) (a : Addr) :
    s.branchIf taken a = s.setPc (if taken then a else s.pc) := rfl

/-- What `inPop` answers (20_memory.md rule R54). -/
theorem State.inPop_eq (s : State) :
    (s.inTray = [] ∧ s.inPop = none) ∨ ∃ v rest, s.inTray = v :: rest ∧ s.inPop = some (v, s.setInTray rest) := by
  unfold State.inPop
  split
  · next h => exact .inl ⟨h, rfl⟩
  · next v rest h => exact .inr ⟨v, rest, h, rfl⟩

/-- When a step is enabled (40_cycle.md rule R106). -/
theorem State.enabled_iff (s : State) : s.enabled = true ↔ s.fault = none ∧ s.halted = false := by
  simp [State.enabled]

/-- The end of a step that did not fault counts it; a faulted one is left as it is (rules R107, R113). -/
theorem State.completeStep_of_none (s : State) (h : s.fault = none) : s.completeStep = s.countCycle := by
  unfold State.completeStep
  rw [h]

theorem State.completeStep_of_some (s : State) (r : FaultRecord) (h : s.fault = some r) : s.completeStep = s := by
  unfold State.completeStep
  rw [h]

end Sys2Proof.Machine
end

