-- ==== Sys2Proof/Laws/PerInstr.lean ====
section
/-!
SUPPORT. Per-instruction families: for each, its statement about one instruction and one lemma per constructor.
-/

/-- The round trip of one instruction: a well-formed instruction is the decode of its word (30_encoding.md rule R61). -/
def Sys2Proof.Laws.RoundTrip.Statement (i : Sys2Proof.Instr) : Prop :=
  i.wellFormed = true → Sys2Proof.decode (Sys2Proof.encode i) = i

namespace Sys2Proof.Laws.RoundTrip

theorem hlt (x : Addr) : Statement (.hlt x) := fun _ => decode_wordOf 0 x
theorem add (a : Addr) : Statement (.add a) := fun _ => decode_wordOf 1 a
theorem sub (a : Addr) : Statement (.sub a) := fun _ => decode_wordOf 2 a
theorem sto (a : Addr) : Statement (.sto a) := fun _ => decode_wordOf 3 a
theorem lda (a : Addr) : Statement (.lda a) := fun _ => decode_wordOf 5 a
theorem br (a : Addr) : Statement (.br a) := fun _ => decode_wordOf 6 a
theorem brz (a : Addr) : Statement (.brz a) := fun _ => decode_wordOf 7 a
theorem brp (a : Addr) : Statement (.brp a) := fun _ => decode_wordOf 8 a
theorem inp : Statement .inp := fun _ => decode_wordOf 9 1
theorem out : Statement .out := fun _ => decode_wordOf 9 2
theorem illegalFour (x : Addr) : Statement (.illegalFour x) := fun _ => decode_wordOf 4 x
theorem illegalNineZero : Statement .illegalNineZero := fun _ => decode_wordOf 9 0
theorem illegalNineOther (x : Addr) : Statement (.illegalNineOther x) := fun h =>
  (decode_wordOf 9 x).trans (decodeNine_other x (of_decide_eq_true h))

end Sys2Proof.Laws.RoundTrip
end

