-- ==== Sys2Proof/Laws/Step.lean ====
section
/-!
SUPPORT. What `exec` and `step` can do, said once: the equation of each arm over the shared operations, the totality of
`exec`, and the inversion of `step`.
-/

namespace Sys2Proof.Machine

section
variable (s : State) (a x : Addr)

theorem exec_hlt : exec (.hlt x) s = .next s.halt := rfl
theorem exec_add : exec (.add a) s = .next (s.setAcc (sumWord s.acc (s.mem.read a))) := rfl
theorem exec_sub :
    exec (.sub a) s =
      .next ((s.setNeg (borrowFlag s.acc (s.mem.read a))).setAcc (differenceWord s.acc (s.mem.read a))) := rfl
theorem exec_sto : exec (.sto a) s = .next (s.writeCell a s.acc) := rfl
theorem exec_lda : exec (.lda a) s = .next (s.setAcc (s.mem.read a)) := rfl
theorem exec_br : exec (.br a) s = .next (s.branchIf true a) := rfl
theorem exec_brz : exec (.brz a) s = .next (s.branchIf (zeroCondition s.acc) a) := rfl
theorem exec_brp : exec (.brp a) s = .next (s.branchIf (brpCondition s.params.brpPolarity s.neg) a) := rfl
theorem exec_out : exec .out s = .next (s.outPush s.acc) := rfl
theorem exec_illegalFour : exec (.illegalFour x) s = .next (s.raise .invalidOpcode) := rfl
theorem exec_illegalNineZero : exec .illegalNineZero s = .next (s.raise .invalidOpcode) := rfl
theorem exec_illegalNineOther : exec (.illegalNineOther x) s = .next (s.raise .invalidOpcode) := rfl

theorem exec_inp_nil (h : s.inTray = []) : exec .inp s = .next (s.raise .inputTrayUnderflow) := by
  rcases s.inPop_eq with ⟨-, hp⟩ | ⟨v, rest, hv, -⟩
  · simp [exec, execInp, hp]
  · simp [h] at hv

theorem exec_inp_cons (v : Word) (rest : List Word) (h : s.inTray = v :: rest) :
    exec .inp s = .next ((s.setInTray rest).setAcc v) := by
  rcases s.inPop_eq with ⟨hn, -⟩ | ⟨v', rest', hv, hp⟩
  · simp [h] at hn
  · rw [h] at hv
    cases hv
    simp [exec, execInp, hp]

end

/-- Every step's execute phase answers a next state: no instruction stops, and none is refused. -/
theorem exec_total (i : Instr) (s : State) : ∃ t, exec i s = .next t := by
  cases i with
  | inp =>
    rcases s.inPop_eq with ⟨h, -⟩ | ⟨v, rest, h, -⟩
    · exact ⟨_, exec_inp_nil s h⟩
    · exact ⟨_, exec_inp_cons s v rest h⟩
  | _ => exact ⟨_, rfl⟩

/-- What every execute phase leaves alone: the parameters, IR, the fetch address and the count. -/
theorem exec_keeps (i : Instr) (s t : State) (h : exec i s = .next t) :
    t.params = s.params ∧ t.ir = s.ir ∧ t.fetchAddr = s.fetchAddr ∧ t.cycles = s.cycles := by
  cases i with
  | inp =>
    rcases s.inPop_eq with ⟨hn, -⟩ | ⟨v, rest, hv, -⟩
    · rw [exec_inp_nil s hn] at h; cases h; exact ⟨rfl, rfl, rfl, rfl⟩
    · rw [exec_inp_cons s v rest hv] at h; cases h; exact ⟨rfl, rfl, rfl, rfl⟩
  | br a => rw [exec_br] at h; cases h; simp
  | brz a => rw [exec_brz] at h; cases h; simp
  | brp a => rw [exec_brp] at h; cases h; simp
  | _ => cases h; exact ⟨rfl, rfl, rfl, rfl⟩

/-- Memory after any execute phase: STO's write, or as before. -/
theorem exec_mem (i : Instr) (s t : State) (h : exec i s = .next t) :
    (∀ a, i = .sto a → t.mem = s.mem.write a s.acc) ∧ ((∀ a, i ≠ .sto a) → t.mem = s.mem) := by
  cases i with
  | inp =>
    rcases s.inPop_eq with ⟨hn, -⟩ | ⟨v, rest, hv, -⟩
    · rw [exec_inp_nil s hn] at h; cases h; simp
    · rw [exec_inp_cons s v rest hv] at h; cases h; simp
  | br a => rw [exec_br] at h; cases h; simp
  | brz a => rw [exec_brz] at h; cases h; simp
  | brp a => rw [exec_brp] at h; cases h; simp
  | sto a => rw [exec_sto] at h; cases h; simp
  | _ => cases h; exact ⟨fun _ e => (Instr.noConfusion e), fun _ => rfl⟩

/-- FAULT after any execute phase: a raised record, or as before. -/
theorem exec_fault (i : Instr) (s t : State) (h : exec i s = .next t) :
    t.fault = s.fault ∨
      (t = s.raise .invalidOpcode ∧ i.illegal = true) ∨
      (t = s.raise .inputTrayUnderflow ∧ i = .inp ∧ s.inTray = []) := by
  cases i with
  | inp =>
    rcases s.inPop_eq with ⟨hn, -⟩ | ⟨v, rest, hv, -⟩
    · rw [exec_inp_nil s hn] at h; cases h; exact .inr (.inr ⟨rfl, rfl, hn⟩)
    · rw [exec_inp_cons s v rest hv] at h; cases h; exact .inl rfl
  | br a => rw [exec_br] at h; cases h; simp
  | brz a => rw [exec_brz] at h; cases h; simp
  | brp a => rw [exec_brp] at h; cases h; simp
  | illegalFour x => cases h; exact .inr (.inl ⟨rfl, rfl⟩)
  | illegalNineZero => cases h; exact .inr (.inl ⟨rfl, rfl⟩)
  | illegalNineOther x => cases h; exact .inr (.inl ⟨rfl, rfl⟩)
  | _ => cases h; exact .inl rfl

/-- The step of an engine that is neither faulted nor halted (40_cycle.md rules R101 to R107). -/
theorem step_of_enabled (s : State) (hf : s.fault = none) (hh : s.halted = false) :
    step s = fetchExecute s := by
  simp [step, engineStep, hf, hh]

/-- All that a step can do: it is enabled, its execute phase answers a state, and that state is completed. -/
theorem step_next_iff (s t : State) :
    step s = .next t ↔
      s.fault = none ∧ s.halted = false ∧ ∃ u, exec s.nextInstr s.fetch = .next u ∧ t = u.completeStep := by
  constructor
  · intro h
    unfold step engineStep at h
    split at h
    · cases h
    · next hf =>
      split at h
      · cases h
      · next hh =>
        obtain ⟨u, hu⟩ := exec_total s.nextInstr s.fetch
        have hfe : fetchExecute s = .next u.completeStep := by
          simp only [fetchExecute, State.fetch_ir]
          rw [State.nextInstr] at hu
          rw [hu]
        rw [hfe] at h
        cases h
        exact ⟨hf, by simpa using hh, u, hu, rfl⟩
  · rintro ⟨hf, hh, u, hu, rfl⟩
    rw [step_of_enabled s hf hh]
    simp only [fetchExecute, State.fetch_ir]
    rw [State.nextInstr] at hu
    rw [hu]

/-! When each branch is taken (44_branch.md rules R130 to R132). -/

theorem takesBranch_br (s : State) (a : Addr) : s.takesBranch (.br a) a := .inl rfl

theorem takesBranch_brz (s : State) (a : Addr) : s.takesBranch (.brz a) a ↔ zeroCondition s.acc = true := by
  simp [State.takesBranch]

theorem takesBranch_brp (s : State) (a : Addr) :
    s.takesBranch (.brp a) a ↔ brpCondition s.params.brpPolarity s.neg = true := by
  simp [State.takesBranch, brpCondition_iff]

theorem step_faulted (s : State) (r : FaultRecord) (h : s.fault = some r) : step s = .fault (.engineFaulted r) := by
  simp [step, engineStep, h]

theorem step_halted (s : State) (hf : s.fault = none) (hh : s.halted = true) : step s = .fault .engineHalted := by
  simp [step, engineStep, hf, hh]

end Sys2Proof.Machine
end

