-- ==== Sys2Proof/Laws/Run.lean ====
section
/-!
SUPPORT. The loop of the run controller: its unfoldings, a stopped engine, and the composition of two loops.
-/

namespace Sys2Proof.Machine

@[simp] theorem runLoop_zero (s : State) : runLoop 0 s = s := rfl

theorem runLoop_succ_next (k : Nat) (s t : State) (h : step s = .next t) : runLoop (k + 1) s = runLoop k t := by
  rw [runLoop, h]

/-- A step is a next state exactly when the engine is enabled (40_cycle.md rule R106). -/
theorem step_next_of_enabled (s : State) (h : s.enabled = true) : ∃ t, step s = .next t := by
  obtain ⟨hf, hh⟩ := s.enabled_iff.1 h
  obtain ⟨u, hu⟩ := exec_total s.nextInstr s.fetch
  exact ⟨_, (step_next_iff s _).2 ⟨hf, hh, u, hu, rfl⟩⟩

theorem enabled_of_step_next (s t : State) (h : step s = .next t) : s.enabled = true :=
  s.enabled_iff.2 ⟨((step_next_iff s t).1 h).1, ((step_next_iff s t).1 h).2.1⟩

/-- The loop leaves a stopped engine as it is. -/
theorem runLoop_stopped (k : Nat) (s : State) (h : s.enabled = false) : runLoop k s = s := by
  cases k with
  | zero => rfl
  | succ k =>
    cases hs : step s with
    | next t => simp [enabled_of_step_next s t hs] at h
    | fault r => rw [runLoop, hs]
    | refused r => rw [runLoop, hs]

/-- Two loops in a row are one loop of the joint budget. -/
theorem runLoop_add (m n : Nat) (s : State) : runLoop (m + n) s = runLoop n (runLoop m s) := by
  induction m generalizing s with
  | zero => simp
  | succ m ih =>
    cases he : s.enabled with
    | true =>
      obtain ⟨t, ht⟩ := step_next_of_enabled s he
      rw [Nat.add_right_comm, runLoop_succ_next _ s t ht, runLoop_succ_next _ s t ht, ih]
    | false => rw [runLoop_stopped _ s he, runLoop_stopped _ s he, runLoop_stopped _ s he]

end Sys2Proof.Machine
end

