-- ==== Sys2Proof/Tests/Slice0.lean ====
section
/-!
SUPPORT. The model's own tests. Expected results come from 95_test_vectors.md and the rules it cites; each test is about
one step or one function on a small state. The `witness_` theorems show that the hypotheses of the statements can be met.
-/

namespace Sys2Proof.Tests

open Sys2Proof Sys2Proof.Machine

/-- A fresh engine with a few cells listed, at a PC, with an accumulator, a NEG and the inputs given. -/
def mk (cells : Memory) (pc : Addr) (acc : Word) (neg : Bool) (ins : List Word) : State :=
  { State.fresh Params.default cells ins with pc := pc, acc := acc, neg := neg }

/-- The same engine under the other BRP polarity. -/
def negativeSet (s : State) : State :=
  { s with params := { s.params with brpPolarity := .negativeSet } }

/-- The outcome is a next state with the property. -/
def nextHas (o : StepOutcome) (p : State → Bool) : Bool :=
  match o with
  | .next t => p t
  | .fault _ => false
  | .refused _ => false

/-- The outcome is a stop with the reason. -/
def stopsWith (o : StepOutcome) (r : Fault) : Bool :=
  match o with
  | .next _ => false
  | .fault r' => decide (r' = r)
  | .refused _ => false

/-! ## Well-formedness: the one check refuses the terms below its bound -/

theorem test_illegalNineOther_below_three_is_ill_formed :
    Instr.wellFormed (.illegalNineOther 0) = false ∧ Instr.wellFormed (.illegalNineOther 1) = false ∧
      Instr.wellFormed (.illegalNineOther 2) = false := by decide
theorem test_illegalNineOther_from_three_is_well_formed :
    Instr.wellFormed (.illegalNineOther 3) = true ∧ Instr.wellFormed (.illegalNineOther 99) = true := by decide

/-! ## Decode and encode: words written out digit by digit from 30_encoding.md rule R64, the ends of every range -/

theorem test_decode_hlt : decode 0 = .hlt 0 ∧ decode 42 = .hlt 42 ∧ decode 99 = .hlt 99 := by decide
theorem test_decode_add : decode 100 = .add 0 ∧ decode 199 = .add 99 := by decide
theorem test_decode_sub : decode 200 = .sub 0 ∧ decode 250 = .sub 50 ∧ decode 299 = .sub 99 := by decide
theorem test_decode_sto : decode 300 = .sto 0 ∧ decode 308 = .sto 8 ∧ decode 399 = .sto 99 := by decide
theorem test_decode_illegalFour :
    decode 400 = .illegalFour 0 ∧ decode 450 = .illegalFour 50 ∧ decode 499 = .illegalFour 99 := by decide
theorem test_decode_lda : decode 500 = .lda 0 ∧ decode 599 = .lda 99 := by decide
theorem test_decode_br : decode 600 = .br 0 ∧ decode 698 = .br 98 ∧ decode 699 = .br 99 := by decide
theorem test_decode_brz : decode 700 = .brz 0 ∧ decode 799 = .brz 99 := by decide
theorem test_decode_brp : decode 800 = .brp 0 ∧ decode 899 = .brp 99 := by decide
theorem test_decode_illegalNineZero : decode 900 = .illegalNineZero := by decide
theorem test_decode_inp : decode 901 = .inp := by decide
theorem test_decode_out : decode 902 = .out := by decide
theorem test_decode_illegalNineOther :
    decode 903 = .illegalNineOther 3 ∧ decode 910 = .illegalNineOther 10 ∧ decode 999 = .illegalNineOther 99 := by decide
theorem test_encode_fixed_codes : encode (.hlt 0) = 0 ∧ encode .inp = 901 ∧ encode .out = 902 := by decide
theorem test_encode_operands : encode (.sto 8) = 308 ∧ encode (.add 9) = 109 ∧ encode (.br 0) = 600 := by decide
theorem test_number_out_of_range_is_rejected_by_name :
    decodeNumber 1000 = .error (.notAWord 1000) ∧ decodeTableWord 16 1000 = none := by decide
theorem test_table_word : decodeTableWord 16 109 = some (.add 9) ∧ decodeTableWord 16 999 = some (.illegalNineOther 99) := by
  decide

/-! ## One step of each instruction (95_test_vectors.md sections 2.2 to 2.8) -/

theorem test_hlt_step :
    nextHas (step (mk [] 7 12 true [])) (fun t => t.halted && t.pc == 8 && t.acc == 12 && t.neg && t.cycles == 1) = true := by
  decide
theorem test_hlt_at_99_wraps_pc : nextHas (step (mk [] 99 0 false [])) (fun t => t.halted && t.pc == 0) = true := by decide
theorem test_add_keeps_neg :
    nextHas (step (mk [(0, 109), (9, 5)] 0 998 true [])) (fun t => t.acc == 3 && t.neg) = true := by decide
theorem test_add_reads_its_own_word : nextHas (step (mk [(5, 105)] 5 0 false [])) (fun t => t.acc == 105) = true := by decide
theorem test_sub_borrow :
    nextHas (step (mk [(0, 209), (9, 5)] 0 3 false [])) (fun t => t.acc == 998 && t.neg) = true := by decide
theorem test_sub_clears_neg :
    nextHas (step (mk [(0, 209), (9, 5)] 0 5 true [])) (fun t => t.acc == 0 && !t.neg) = true := by decide
theorem test_sto_writes_cell :
    nextHas (step (mk [(0, 308)] 0 4 true []))
      (fun t => t.mem.read 8 == 4 && t.mem.read 0 == 308 && t.acc == 4 && t.neg) = true := by decide
theorem test_sto_over_next_instruction_is_fetched :
    nextHas (step (mk [(2, 303)] 2 902 false [])) (fun t => nextHas (step t) (fun u => u.outTray == [902])) = true := by
  decide
theorem test_lda_keeps_neg :
    nextHas (step (mk [(0, 508), (8, 4)] 0 0 true [])) (fun t => t.acc == 4 && t.neg) = true := by decide
theorem test_br_overwrites_the_advance : nextHas (step (mk [(3, 603)] 3 0 false [])) (fun t => t.pc == 3) = true := by decide
theorem test_brz_taken_and_not :
    nextHas (step (mk [(1, 705)] 1 0 true [])) (fun t => t.pc == 5) = true ∧
      nextHas (step (mk [(1, 705)] 1 1 false [])) (fun t => t.pc == 2) = true := by decide
theorem test_brp_non_negative :
    nextHas (step (mk [(5, 809)] 5 0 false [])) (fun t => t.pc == 9) = true ∧
      nextHas (step (mk [(5, 809)] 5 0 true [])) (fun t => t.pc == 6) = true := by decide
theorem test_brp_negative_set :
    nextHas (step (negativeSet (mk [(5, 809)] 5 0 false []))) (fun t => t.pc == 6) = true ∧
      nextHas (step (negativeSet (mk [(5, 809)] 5 0 true []))) (fun t => t.pc == 9) = true := by decide
theorem test_inp_pops_the_front :
    nextHas (step (mk [(0, 901)] 0 0 true [4, 7])) (fun t => t.acc == 4 && t.inTray == [7] && t.neg) = true := by decide
theorem test_inp_on_empty_tray_faults :
    nextHas (step (mk [(0, 901)] 0 12 false []))
      (fun t => t.fault == some { kind := .inputTrayUnderflow, cycle := 1, mailbox := 0 } && t.cycles == 0) = true := by
  decide
theorem test_out_appends :
    nextHas (step { mk [(0, 902)] 0 0 false [] with outTray := [3] }) (fun t => t.outTray == [3, 0] && t.acc == 0) = true := by
  decide
theorem test_illegal_four_faults :
    nextHas (step (mk [(0, 400)] 0 0 false []))
      (fun t => t.fault == some { kind := .invalidOpcode, cycle := 1, mailbox := 0 }) = true := by decide
theorem test_illegal_nine_zero_faults :
    nextHas (step (mk [(7, 900)] 7 0 false [5]))
      (fun t => t.fault == some { kind := .invalidOpcode, cycle := 1, mailbox := 7 } && t.inTray == [5]) = true := by decide
theorem test_illegal_nine_other_faults_as_step_two :
    nextHas (step { mk [(0, 603), (3, 903)] 3 0 false [] with cycles := 1 })
      (fun t => t.fault == some { kind := .invalidOpcode, cycle := 2, mailbox := 3 } && t.outTray == []) = true := by decide
theorem test_halted_engine_takes_no_step :
    stopsWith (step { mk [] 0 0 false [] with halted := true }) .engineHalted = true := by decide
theorem test_faulted_engine_takes_no_step :
    stopsWith (step ((mk [] 0 0 false []).raise .invalidOpcode))
      (.engineFaulted { kind := .invalidOpcode, cycle := 1, mailbox := 0 }) = true := by decide
theorem test_with_fetch_word_runs_first :
    nextHas (step (State.reset.withFetchWord 16 640)) (fun t => t.pc == 40 && t.ir == 640) = true := by decide

/-! ## Memory, reset and the run controller -/

theorem test_write_keeps_rising_addresses :
    ((Memory.write [] 9 1).write 2 5).write 9 0 = [(2, 5)] ∧ (Memory.write [(2, 5)] 1 7) = [(1, 7), (2, 5)] := by decide
theorem test_run_zero_executes_nothing : (run 0 State.reset).1 = .budgetExceeded 0 := by decide
theorem test_halt_counts_and_rerun_returns_zero :
    (run 5 State.reset).1 = .halted 1 ∧ (run 5 (run 5 State.reset).2).1 = .halted 0 := by decide
theorem test_infinite_loop_uses_its_budget : (run 3 (mk [(0, 600)] 0 0 false [])).1 = .budgetExceeded 3 := by decide
theorem test_fault_ends_the_run :
    (run 5 (mk [(0, 603), (3, 903)] 0 0 false [])).1 =
      .fault { kind := .invalidOpcode, cycle := 2, mailbox := 3 } := by decide
theorem test_loader_refuses_short_image : hostReset Params.default [1, 2] [] = .error (.imageLength 2) := by decide
theorem test_loader_refuses_input_out_of_range :
    hostReset Params.default (List.replicate 100 0) [1000] = .error (.inputValue 1000) := by decide +kernel

/-! ## The assembler (95_test_vectors.md section 2.10) and the harness -/

/-- The first words of an assembled source, or its error. -/
def firstWords (n : Nat) (r : Except AssemblyError (List Word)) : Except AssemblyError (List Word) :=
  match r with
  | .ok ws => .ok (ws.take n)
  | .error e => .error e

/-- `STA 7` / `COB` -/
theorem test_assemble_aliases :
    firstWords 2 (assemble [['S', 'T', 'A', ' ', '7'], ['C', 'O', 'B']]) = .ok [307, 0] := by decide
/-- `BR e` / `e HLT`: a forward reference -/
theorem test_assemble_forward_reference :
    firstWords 2 (assemble [['B', 'R', ' ', 'e'], ['e', ' ', 'H', 'L', 'T']]) = .ok [601, 0] := by decide
/-- `t HLT` / `BR t`: a backward reference -/
theorem test_assemble_backward_reference :
    firstWords 2 (assemble [['t', '\t', 'H', 'L', 'T'], ['B', 'R', ' ', 't']]) = .ok [0, 600] := by decide
/-- `# c` / (blank) / `x LDA y # l` / `y DAT 7` -/
theorem test_assemble_comments_and_labels :
    firstWords 3 (assemble [['#', ' ', 'c'], [], ['x', ' ', 'L', 'D', 'A', ' ', 'y', ' ', '#', ' ', 'l'],
      ['y', ' ', 'D', 'A', 'T', ' ', '7']]) = .ok [501, 7, 0] := by decide
/-- `HLT 5` / `foo` / `12 HLT` / `ADD` -/
theorem test_assemble_malformed_lines :
    assemble [['H', 'L', 'T', ' ', '5']] = .error { kind := .malformedLine, line := 1 } ∧
      assemble [['f', 'o', 'o']] = .error { kind := .malformedLine, line := 1 } ∧
      assemble [['1', '2', ' ', 'H', 'L', 'T']] = .error { kind := .malformedLine, line := 1 } ∧
      assemble [['A', 'D', 'D']] = .error { kind := .malformedLine, line := 1 } := by decide
/-- (blank) / (blank) / `lda 5`: a label and an unknown mnemonic -/
theorem test_assemble_unknown_mnemonic :
    assemble [[], [], ['l', 'd', 'a', ' ', '5']] = .error { kind := .unknownMnemonic, line := 3 } := by decide
/-- `ADD 100` / `DAT 1000` / `ADD zz` -/
theorem test_assemble_operand_errors :
    assemble [['A', 'D', 'D', ' ', '1', '0', '0']] = .error { kind := .operandOutOfRange, line := 1 } ∧
      assemble [['D', 'A', 'T', ' ', '1', '0', '0', '0']] = .error { kind := .operandOutOfRange, line := 1 } ∧
      assemble [['A', 'D', 'D', ' ', 'z', 'z']] = .error { kind := .undefinedLabel, line := 1 } := by decide
/-- `ADD zz` / `a HLT` / `a HLT`: pass 1 errors come first -/
theorem test_assemble_pass_one_first :
    assemble [['A', 'D', 'D', ' ', 'z', 'z'], ['a', ' ', 'H', 'L', 'T'], ['a', ' ', 'H', 'L', 'T']] =
      .error { kind := .duplicateLabel, line := 3 } := by decide
theorem test_harness_compares_last_output :
    haltedVerdict (some 2) [7, 2] = .pass ∧ haltedVerdict (some 2) [] = .resultMismatch .noOutputProduced ∧
      haltedVerdict (some 2) [2, 7] = .resultMismatch (.lastOutput 7) := by decide

/-! ## Witnesses: states and operands that meet the hypotheses of the statements -/

/-- An engine at a HLT, at an STO to the next cell, and so on: what most step statements assume of a state. -/
theorem witness_enabled : (mk [(2, 303)] 2 902 false []).enabled = true := by decide
theorem witness_decode_rows :
    ((0 : Word).val = (0 : Addr).val) ∧ ((199 : Word).val = 100 + (99 : Addr).val) ∧
    ((200 : Word).val = 200 + (0 : Addr).val) ∧ ((399 : Word).val = 300 + (99 : Addr).val) ∧
    ((400 : Word).val = 400 + (0 : Addr).val) ∧ ((599 : Word).val = 500 + (99 : Addr).val) ∧
    ((600 : Word).val = 600 + (0 : Addr).val) ∧ ((799 : Word).val = 700 + (99 : Addr).val) ∧
    ((899 : Word).val = 800 + (99 : Addr).val) ∧ (900 : Word).val = 900 ∧ (901 : Word).val = 901 ∧
    (902 : Word).val = 902 ∧ ((903 : Word).val = 900 + (3 : Addr).val ∧ 3 ≤ (3 : Addr).val) := by decide
theorem witness_well_formed : Instr.wellFormed (.add 99) = true ∧ Instr.wellFormed (.illegalNineOther 3) = true := by decide
theorem witness_illegal_fetched :
    (mk [(0, 903)] 0 0 false []).enabled = true ∧
      (decode ((mk [(0, 903)] 0 0 false []).mem.read (mk [(0, 903)] 0 0 false []).pc)).illegal = true := by decide
theorem witness_step_runs_decoded :
    (mk [(0, 109)] 0 0 false []).enabled = true ∧ decode ((mk [(0, 109)] 0 0 false []).mem.read 0) = .add 9 ∧
      Instr.wellFormed (.add 9) = true := by decide
/-- A step that raises no fault, at each branch form and at a form that is no branch. -/
theorem witness_pc_after_step :
    nextHas (step (mk [(0, 699)] 0 0 false [])) (fun t => t.fault == none) = true ∧
      (mk [(0, 699)] 0 0 false []).nextInstr = .br 99 ∧
      nextHas (step (mk [(99, 700)] 99 0 false [])) (fun t => t.fault == none) = true ∧
      (mk [(99, 700)] 99 0 false []).nextInstr = .brz 0 ∧
      nextHas (step (mk [(99, 700)] 99 1 false [])) (fun t => t.fault == none && t.pc == 0) = true ∧
      nextHas (step (mk [(5, 809)] 5 0 true [])) (fun t => t.fault == none) = true ∧
      (mk [(5, 809)] 5 0 true []).nextInstr = .brp 9 ∧
      nextHas (step (mk [(99, 100)] 99 0 false [])) (fun t => t.fault == none && t.pc == 0) = true := by decide
theorem witness_completes_or_raises :
    (mk [(0, 400)] 0 0 false []).enabled = true ∧ (mk [(0, 400)] 0 0 false []).nextInstr.illegal = true ∧
      (mk [(0, 901)] 0 0 false []).nextInstr = .inp ∧ (mk [(0, 901)] 0 0 false []).inTray = [] := by decide
theorem witness_stopped_engines :
    ((mk [] 0 0 false []).raise .invalidOpcode).fault = some { kind := .invalidOpcode, cycle := 1, mailbox := 0 } ∧
      (mk [] 0 0 false []).halt.fault = none ∧ (mk [] 0 0 false []).halt.halted = true := by decide
/-- A step that does not fault and one that does. -/
theorem witness_counted_and_uncounted :
    nextHas (step (mk [] 0 0 false [])) (fun t => t.fault == none) = true ∧
      nextHas (step (mk [(0, 999)] 0 0 false [])) (fun t => t.fault != none) = true := by decide
theorem witness_hlt_step : (mk [(0, 99)] 0 0 false []).enabled = true ∧ ((mk [(0, 99)] 0 0 false []).mem.read 0).val ≤ 99 := by
  decide
/-- SUB's two clauses: a borrow and none, at the boundary of equality. -/
theorem witness_sub_clauses :
    ((((mk [(9, 5)] 0 4 false []).acc.val : Int) - ((mk [(9, 5)] 0 4 false []).mem.read 9).val) < 0) ∧
      (0 ≤ (((mk [(9, 5)] 0 5 false []).acc.val : Int) - ((mk [(9, 5)] 0 5 false []).mem.read 9).val)) := by decide
theorem witness_br_to_itself :
    (mk [(3, 603)] 3 0 false []).enabled = true ∧ (mk [(3, 603)] 3 0 false []).nextInstr = .br 3 ∧
      (mk [(3, 603)] 3 0 false []).pc = 3 := by decide
theorem witness_branches :
    (mk [(1, 705)] 1 0 false []).enabled = true ∧ (mk [(1, 705)] 1 0 false []).nextInstr = .brz 5 := by decide
/-- BRZ's two clauses and BRP's two polarities. -/
theorem witness_branch_conditions :
    (mk [] 0 0 false []).acc = 0 ∧ (mk [] 0 1 false []).acc ≠ 0 ∧
      (mk [] 0 0 false []).params.brpPolarity = .nonNegative ∧
      (negativeSet (mk [] 0 0 false [])).params.brpPolarity = .negativeSet := by decide
/-- A taken and an untaken branch of each kind that has both. -/
theorem witness_takes_branch :
    (mk [] 0 5 true []).takesBranch (.br 9) 9 ∧ (mk [] 0 0 true []).takesBranch (.brz 9) 9 ∧
      ¬ (mk [] 0 1 true []).takesBranch (.brz 9) 9 ∧ (mk [] 0 0 false []).takesBranch (.brp 9) 9 ∧
      ¬ (mk [] 0 0 true []).takesBranch (.brp 9) 9 ∧ (negativeSet (mk [] 0 0 true [])).takesBranch (.brp 9) 9 ∧
      ¬ (negativeSet (mk [] 0 0 false [])).takesBranch (.brp 9) 9 := by
  unfold State.takesBranch
  decide
theorem witness_inp_forms : (mk [] 0 0 false [999]).inTray = 999 :: [] ∧ (mk [] 0 0 false []).inTray = [] := by decide
theorem witness_inp_underflow_run :
    (mk [(0, 901)] 0 0 false []).enabled = true ∧ (mk [(0, 901)] 0 0 false []).nextInstr = .inp ∧
      (mk [(0, 901)] 0 0 false []).inTray = [] := by decide
theorem witness_illegal_rows : Instr.illegalFour 0 = .illegalFour 0 ∧ Instr.illegalNineOther 99 = .illegalNineOther 99 := by
  decide
/-- A step of each instruction that writes ACC, NEG, memory or a tray, raising no fault. -/
theorem witness_writers :
    nextHas (step (mk [(0, 109)] 0 0 false [])) (fun t => t.fault == none) = true ∧
      nextHas (step (mk [(0, 209), (9, 1)] 0 0 false [])) (fun t => t.fault == none && t.neg) = true ∧
      nextHas (step (mk [(0, 509)] 0 0 false [])) (fun t => t.fault == none) = true ∧
      nextHas (step (mk [(0, 901)] 0 0 false [7])) (fun t => t.fault == none) = true ∧
      nextHas (step (mk [(0, 309)] 0 5 false [])) (fun t => t.fault == none) = true ∧
      nextHas (step (mk [(0, 902)] 0 5 false [])) (fun t => t.fault == none) = true ∧
      nextHas (step (mk [(0, 705)] 0 5 false [])) (fun t => t.fault == none) = true := by decide
/-- The same instructions at PC, so that the clauses of the whole-machine statements have their hypotheses met. -/
theorem witness_next_instructions :
    (mk [(0, 109)] 0 0 false []).nextInstr = .add 9 ∧ (mk [(0, 209)] 0 0 false []).nextInstr = .sub 9 ∧
      (mk [(0, 509)] 0 0 false []).nextInstr = .lda 9 ∧ (mk [(0, 901)] 0 0 false [7]).nextInstr = .inp ∧
      (mk [(0, 309)] 0 5 false []).nextInstr = .sto 9 ∧ (mk [(0, 902)] 0 5 false []).nextInstr = .out ∧
      (mk [] 0 0 false []).nextInstr = .hlt 0 ∧ (mk [(0, 850)] 0 0 false []).nextInstr = .brp 50 := by decide
/-- NEG set with ACC nonzero before an instruction that writes neither. -/
theorem witness_neg_kept :
    nextHas (step (mk [(0, 902)] 0 998 true [])) (fun t => t.fault == none && t.neg) = true ∧
      (mk [(0, 902)] 0 998 true []).neg = true ∧ 1 ≤ (mk [(0, 902)] 0 998 true []).acc.val := by decide
theorem witness_store_next_and_own :
    (mk [(2, 303)] 2 902 false []).nextInstr = .sto 3 ∧ (3 : Addr) = nextAddr (mk [(2, 303)] 2 902 false []).pc ∧
      (mk [(5, 305)] 5 77 false []).enabled = true ∧ (mk [(5, 305)] 5 77 false []).nextInstr = .sto 5 ∧
      (5 : Addr) = (mk [(5, 305)] 5 77 false []).pc := by decide
theorem witness_same_observables :
    State.SameObservables State.reset { State.reset with ir := 999, fetchAddr := 99 } ∧
      State.reset.cycles = { State.reset with ir := 999, fetchAddr := 99 }.cycles ∧
      nextHas (step State.reset) (fun _ => true) = true :=
  ⟨⟨fun _ => rfl, rfl, rfl, rfl, rfl, rfl, rfl, rfl, rfl⟩, rfl, by decide⟩
theorem witness_invariant_and_step :
    State.Inv (mk [(0, 309)] 0 5 false []) ∧ nextHas (step (mk [(0, 309)] 0 5 false [])) (fun _ => true) = true :=
  ⟨⟨by decide, fun r h => by cases h⟩, by decide⟩
theorem witness_canonical_memories :
    Memory.wf [(2, 5), (9, 1)] ∧ Memory.wf ((Memory.write [] 9 1).write 2 5) ∧
      ∀ a, Memory.read [(2, 5), (9, 1)] a = ((Memory.write [] 9 1).write 2 5).read a := by decide +kernel
theorem witness_loader :
    (List.replicate 100 999).length = 100 ∧ (∀ v ∈ List.replicate 100 999, v ≤ 999) ∧ (∀ v ∈ [0, 999], v ≤ 999) ∧
      (∀ c, { Params.default with inCapacity := some 2 }.inCapacity = some c → [0, 999].length ≤ c) := by
  refine ⟨rfl, fun v hv => ?_, by decide, fun c hc => ?_⟩
  · rw [List.eq_of_mem_replicate hv]
  · cases hc; decide
theorem witness_reset_accepted :
    (match hostReset { Params.default with inCapacity := some 2 } (List.replicate 100 999) [0, 999] with
      | .ok s => s.mem.read 99 == 999 && s.inTray == [0, 999]
      | .error _ => false) = true := by decide +kernel
theorem witness_safe_run : SafeRun 3 (mk [(0, 600)] 0 0 false []) := by
  unfold SafeRun
  decide
/-- A run of each outcome from an engine that can step. -/
theorem witness_run_outcomes :
    State.reset.enabled = true ∧ (run 1 State.reset).1 = .halted 1 ∧
      (run 2 (mk [(0, 600)] 0 0 false [])).1 = .budgetExceeded 2 ∧
      (run 1 (mk [(0, 400)] 0 0 false [])).1 = .fault { kind := .invalidOpcode, cycle := 1, mailbox := 0 } := by decide
/-- A budget used up just before a HLT. -/
theorem witness_hlt_on_last_step :
    (mk [(0, 602)] 0 0 false []).enabled = true ∧ (run 1 (mk [(0, 602)] 0 0 false [])).1 = .budgetExceeded 1 ∧
      (runState 1 (mk [(0, 602)] 0 0 false [])).nextInstr = .hlt 0 := by decide
theorem witness_run_one :
    nextHas (step { mk [] 0 0 false [] with cycles := 0 }) (fun _ => true) = true ∧
      (mk [] 0 0 false []).halt.halted = true ∧ (mk [] 0 0 false []).halt.fault = none := by decide

/-- The source `BR e` / `e HLT`, whose label stands after its use. -/
def forwardSource : List (List Char) := [['B', 'R', ' ', 'e'], ['e', ' ', 'H', 'L', 'T']]

theorem witness_labels :
    ∃ image p q, assemble forwardSource = .ok image ∧ (parseLines 1 forwardSource)[0]? = some p ∧
      p.mnemonic = some ['B', 'R'] ∧ mnemonicOf ['B', 'R'] = some .br ∧ classOf .br = .oneOperand 6 ∧
      p.operand = some ['e'] ∧ (parseLines 1 forwardSource)[1]? = some q ∧ q.label = some ['e'] :=
  ⟨_, _, _, rfl, rfl, rfl, by decide, rfl, rfl, rfl, rfl⟩
theorem witness_literals :
    ∃ image p, assemble [['A', 'D', 'D', ' ', '9', '9']] = .ok image ∧
      (parseLines 1 [['A', 'D', 'D', ' ', '9', '9']])[0]? = some p ∧ p.mnemonic = some ['A', 'D', 'D'] ∧
      mnemonicOf ['A', 'D', 'D'] = some .add ∧ classOf .add = .oneOperand 1 ∧ p.operand = some ['9', '9'] ∧
      literalValue ['9', '9'] = some 99 :=
  ⟨_, _, rfl, rfl, rfl, by decide, rfl, rfl, by decide⟩
/-- 101 lines `HLT`: the 101st is refused, and the first 100 pass. -/
theorem witness_over_100_lines :
    ((parseLines 1 (List.replicate 101 ['H', 'L', 'T']))[100]?.map (·.line)) = some 101 ∧
      (match passOne 0 ((parseLines 1 (List.replicate 101 ['H', 'L', 'T'])).take 100) [] with
        | .ok table => table == []
        | .error _ => false) = true := by decide
/-- 100 lines `HLT` are accepted; 99 of them and a line `foo` are 100 lines refused, and not as too large. -/
theorem witness_exactly_100_lines :
    (parseLines 1 (List.replicate 100 ['H', 'L', 'T'])).length ≤ 100 ∧
      assemble (List.replicate 100 ['H', 'L', 'T']) = .ok (List.replicate 100 0) ∧
      (parseLines 1 (List.replicate 99 ['H', 'L', 'T'] ++ [['f', 'o', 'o']])).length ≤ 100 ∧
      assemble (List.replicate 99 ['H', 'L', 'T'] ++ [['f', 'o', 'o']]) =
        .error { kind := .malformedLine, line := 100 } := by decide +kernel
theorem witness_mismatch : [(2 : Word), 7].getLast? = some 7 ∧ (7 : Word).val ≠ (2 : Word).val := by decide
theorem witness_shared_classes :
    mnemonicOf ['C', 'O', 'B'] = some .cob ∧ mnemonicOf ['H', 'L', 'T'] = some .hlt ∧ classOf .cob = classOf .hlt ∧
      mnemonicOf ['S', 'T', 'A'] = some .sta ∧ mnemonicOf ['S', 'T', 'O'] = some .sto ∧ classOf .sta = classOf .sto := by
  decide
theorem witness_alias_operand :
    resolveOperand [(['x'], 8)] ['x'] = .ok 8 ∧ literalValue ['0', '0', '7'] = some (7 : Word).val := by decide

end Sys2Proof.Tests
end

section
/-!
SUPPORT. The step that raises no fault, said once as a relation with one constructor per instruction, and what every
such step keeps, along a whole run too.
-/

namespace Sys2Proof.Machine

/-- The execute phase of `i` in `s` raises no fault and ends in the last argument. The illegal rows have no constructor,
and IN has one for a nonempty input tray only. -/
inductive ExecCompletes (s : State) : Instr → State → Prop
  | hlt (x : Addr) : ExecCompletes s (.hlt x) s.halt
  | add (a : Addr) : ExecCompletes s (.add a) (s.setAcc (sumWord s.acc (s.mem.read a)))
  | sub (a : Addr) : ExecCompletes s (.sub a)
      ((s.setNeg (borrowFlag s.acc (s.mem.read a))).setAcc (differenceWord s.acc (s.mem.read a)))
  | sto (a : Addr) : ExecCompletes s (.sto a) (s.writeCell a s.acc)
  | lda (a : Addr) : ExecCompletes s (.lda a) (s.setAcc (s.mem.read a))
  | br (a : Addr) : ExecCompletes s (.br a) (s.branchIf true a)
  | brz (a : Addr) : ExecCompletes s (.brz a) (s.branchIf (zeroCondition s.acc) a)
  | brp (a : Addr) : ExecCompletes s (.brp a) (s.branchIf (brpCondition s.params.brpPolarity s.neg) a)
  | inp (v : Word) (rest : List Word) (h : s.inTray = v :: rest) :
      ExecCompletes s .inp ((s.setInTray rest).setAcc v)
  | out : ExecCompletes s .out (s.outPush s.acc)

/-- A completed execute phase is what `exec` answers. -/
theorem ExecCompletes.exec_eq {s u : State} {i : Instr} (h : ExecCompletes s i u) : exec i s = .next u := by
  cases h with
  | inp v rest h => exact exec_inp_cons s v rest h
  | _ => rfl

/-- A completed execute phase leaves FAULT alone. -/
theorem ExecCompletes.fault_eq {s u : State} {i : Instr} (h : ExecCompletes s i u) : u.fault = s.fault := by
  cases h <;> rfl

/-- Every execute phase without a fault is a completed one. -/
theorem execCompletes_of_exec {s u : State} {i : Instr} (h : exec i s = .next u) (hf : u.fault = none) :
    ExecCompletes s i u := by
  cases i with
  | hlt x => cases h; exact .hlt x
  | add a => cases h; exact .add a
  | sub a => cases h; exact .sub a
  | sto a => cases h; exact .sto a
  | lda a => cases h; exact .lda a
  | br a => cases h; exact .br a
  | brz a => cases h; exact .brz a
  | brp a => cases h; exact .brp a
  | out => cases h; exact .out
  | inp =>
    rcases s.inPop_eq with ⟨hn, -⟩ | ⟨v, rest, hv, -⟩
    · rw [exec_inp_nil s hn] at h; cases h; cases hf
    · rw [exec_inp_cons s v rest hv] at h; cases h; exact .inp v rest hv
  | illegalFour x => cases h; cases hf
  | illegalNineZero => cases h; cases hf
  | illegalNineOther x => cases h; cases hf

/-- All that a step without a fault can do: it is enabled, its execute phase completes, and it is counted. -/
theorem step_next_without_fault_iff (s t : State) :
    step s = .next t ∧ t.fault = none ↔
      s.enabled = true ∧ ∃ u, ExecCompletes s.fetch s.nextInstr u ∧ t = u.countCycle := by
  rw [step_next_iff, State.enabled_iff]
  constructor
  · rintro ⟨⟨hf, hh, u, hu, rfl⟩, hn⟩
    have hun : u.fault = none := by simpa using hn
    exact ⟨⟨hf, hh⟩, u, execCompletes_of_exec hu hun, u.completeStep_of_none hun⟩
  · rintro ⟨⟨hf, hh⟩, u, hu, rfl⟩
    have hun : u.fault = none := hu.fault_eq.trans hf
    exact ⟨⟨hf, hh, u, hu.exec_eq, (u.completeStep_of_none hun).symm⟩, hun⟩

section
variable {s u : State} {i : Instr}

/-- ACC is written by ADD, SUB, LDA and IN alone (10_state.md rule R21). -/
theorem ExecCompletes.acc_eq (h : ExecCompletes s i u)
    (hi : ∀ a, i ≠ .add a ∧ i ≠ .sub a ∧ i ≠ .lda a) (hin : i ≠ .inp) : u.acc = s.acc := by
  cases h with
  | add a => exact absurd rfl (hi a).1
  | sub a => exact absurd rfl (hi a).2.1
  | lda a => exact absurd rfl (hi a).2.2
  | inp => exact absurd rfl hin
  | _ => rfl

/-- LDA and IN overwrite ACC without reading it. -/
theorem ExecCompletes.of_setAcc_overwritten (h : ExecCompletes s i u) (v : Word)
    (hi : (∃ a, i = .lda a) ∨ i = .inp) : ExecCompletes (s.setAcc v) i u := by
  rcases hi with ⟨a, rfl⟩ | rfl
  · cases h; exact .lda a
  · cases h with
    | inp w rest hw => exact .inp w rest hw

/-- HLT, BR and BRP neither read nor write ACC. -/
theorem ExecCompletes.of_setAcc_kept (h : ExecCompletes s i u) (v : Word)
    (hi : ∃ a, i = .hlt a ∨ i = .br a ∨ i = .brp a) : ExecCompletes (s.setAcc v) i (u.setAcc v) := by
  obtain ⟨a, rfl | rfl | rfl⟩ := hi
  · cases h; exact .hlt a
  · cases h; exact .br a
  · cases h; exact .brp a

/-- NEG is written by SUB alone (rule R22). -/
theorem ExecCompletes.neg_eq (h : ExecCompletes s i u) (hi : ∀ a, i ≠ .sub a) : u.neg = s.neg := by
  cases h with
  | sub a => exact absurd rfl (hi a)
  | _ => rfl

/-- NEG is read by BRP alone (rule R22). -/
theorem ExecCompletes.of_setNeg (h : ExecCompletes s i u) (b : Bool) (hi : ∀ a, i ≠ .brp a) :
    ∃ u', ExecCompletes (s.setNeg b) i u' ∧ u' = u.setNeg u'.neg := by
  cases h with
  | hlt x => exact ⟨_, .hlt x, rfl⟩
  | add a => exact ⟨_, .add a, rfl⟩
  | sub a => exact ⟨_, .sub a, rfl⟩
  | sto a => exact ⟨_, .sto a, rfl⟩
  | lda a => exact ⟨_, .lda a, rfl⟩
  | br a => exact ⟨_, .br a, rfl⟩
  | brz a => exact ⟨_, .brz a, rfl⟩
  | brp a => exact absurd rfl (hi a)
  | inp v rest hv => exact ⟨_, .inp v rest hv, rfl⟩
  | out => exact ⟨_, .out, rfl⟩

/-- The output tray is changed by OUT alone, at its end (rule R29). -/
theorem ExecCompletes.outTray_eq_or_append (h : ExecCompletes s i u) :
    u.outTray = s.outTray ∨ (i = .out ∧ u.outTray = s.outTray ++ [s.acc]) := by
  cases h with
  | out => exact .inr ⟨rfl, rfl⟩
  | _ => exact .inl rfl

end

/-- The loop writes no FAULT away: one that ends without a fault started without one. -/
theorem fault_eq_none_of_runLoop (n : Nat) (s : State) (h : (runLoop n s).fault = none) : s.fault = none := by
  cases he : s.enabled with
  | true => exact (s.enabled_iff.1 he).1
  | false => rwa [runLoop_stopped n s he] at h

/-- What every step without a fault keeps, a loop that ends without a fault keeps. -/
theorem runLoop_keeps (P : State → Prop) (hP : ∀ s t, step s = .next t → t.fault = none → P s → P t) (n : Nat)
    (s : State) (hn : (runLoop n s).fault = none) (hs : P s) : P (runLoop n s) := by
  induction n generalizing s with
  | zero => exact hs
  | succ n ih =>
    cases he : s.enabled with
    | false => rwa [runLoop_stopped _ s he]
    | true =>
      obtain ⟨t, ht⟩ := step_next_of_enabled s he
      rw [runLoop_succ_next n s t ht] at hn ⊢
      exact ih t hn (hP s t ht (fault_eq_none_of_runLoop n t hn) hs)

/-- What the host reads back of an engine without a fault holds its whole output tray. -/
theorem State.readBack_outputs (s : State) (h : s.fault = none) :
    ∃ rb, s.readBack = some rb ∧ rb.outputs = s.outTray := by
  simp [State.readBack, h]

end Sys2Proof.Machine
end

section
/-!
PROOFS. The statements of 10_state.md: access to ACC (rule R21) and to NEG (rule R22), and the output tray (rule R29).
-/

namespace Sys2Proof.Machine

/-- Settles O30: ADD, SUB, LDA and IN write ACC, STO, BRZ and OUT use it, and the rest do not depend on it. -/
theorem accessToAccByInstruction : Obligations.AccessToAccByInstruction := by
  constructor
  · intro s t h hf
    obtain ⟨-, u, hu, rfl⟩ := (step_next_without_fault_iff s t).1 ⟨h, hf⟩
    refine ⟨fun a hi => ?add, fun a hi => ?sub, fun a hi => ?lda, fun hi => ?inp, fun a hi => ?sto,
      fun a hi => ?brz, fun hi => ?out, hu.acc_eq⟩ <;> rw [hi] at hu
    case add => cases hu; simp
    case sub => cases hu; exact differenceWord_val s.acc (s.mem.read a)
    case lda => cases hu; simp
    case inp =>
      cases hu with
      | inp v rest hv => rw [State.fetch_inTray] at hv; simp [hv]
    case sto => cases hu; simp
    case brz => cases hu; simp
    case out => cases hu; simp
  · intro s t v h hf
    obtain ⟨he, u, hu, rfl⟩ := (step_next_without_fault_iff s t).1 ⟨h, hf⟩
    have step_of_setAcc (u' : State) (hu' : ExecCompletes (s.fetch.setAcc v) s.nextInstr u') :
        step { s with acc := v } = .next u'.countCycle :=
      ((step_next_without_fault_iff { s with acc := v } _).2 ⟨he, u', hu', rfl⟩).1
    exact ⟨fun hi => step_of_setAcc u (hu.of_setAcc_overwritten v hi),
      fun hi => step_of_setAcc (u.setAcc v) (hu.of_setAcc_kept v hi)⟩

/-- Settles O31: SUB alone writes NEG, and only BRP's execute phase depends on it. -/
theorem negIsWrittenOnlyBySub : Obligations.NegIsWrittenOnlyBySub := by
  constructor
  · intro s t h hf
    obtain ⟨-, u, hu, rfl⟩ := (step_next_without_fault_iff s t).1 ⟨h, hf⟩
    refine ⟨fun a hi => ?_, hu.neg_eq⟩
    rw [hi] at hu
    cases hu
    simp
  · intro s t b h hf hi
    obtain ⟨he, u, hu, rfl⟩ := (step_next_without_fault_iff s t).1 ⟨h, hf⟩
    obtain ⟨u', hu', heq⟩ := hu.of_setNeg b hi
    have hstep := (step_next_without_fault_iff { s with neg := b } u'.countCycle).2 ⟨he, u', hu', rfl⟩
    exact ⟨u'.countCycle, hstep.1, congrArg State.countCycle heq⟩

/-- A step without a fault leaves the output tray, or is OUT's and appends ACC. -/
theorem step_outTray (s t : State) (h : step s = .next t) (hf : t.fault = none) :
    t.outTray = s.outTray ∨ (s.nextInstr = .out ∧ t.outTray = s.outTray ++ [s.acc]) := by
  obtain ⟨-, u, hu, rfl⟩ := (step_next_without_fault_iff s t).1 ⟨h, hf⟩
  exact hu.outTray_eq_or_append

/-- A step without a fault only extends the output tray. -/
theorem step_outTray_prefix (s t : State) (h : step s = .next t) (hf : t.fault = none) : s.outTray <+: t.outTray := by
  rcases step_outTray s t h hf with heq | ⟨-, heq⟩
  · rw [heq]
  · rw [heq]
    exact List.prefix_append _ _

/-- Settles O35: every step extends the old tray at its end, and so does the run. -/
theorem outputTrayIsAppendOnly : Obligations.OutputTrayIsAppendOnly := by
  refine ⟨step_outTray, fun s n hrun => ⟨?_, State.readBack_outputs _ hrun⟩⟩
  exact runLoop_keeps (s.outTray <+: ·.outTray) (fun x y h hf hx => hx.trans (step_outTray_prefix x y h hf)) n
    s.startRun hrun (List.prefix_refl s.outTray)

end Sys2Proof.Machine
end

section
/-!
PROOFS. The statement of 20_memory.md: memory is changed by STO and by the loading of the image alone (rule R48).
-/

namespace Sys2Proof.Machine

/-- Memory after any step, a faulting one too: STO's write, or as before. -/
theorem step_mem (s t : State) (h : step s = .next t) :
    (∀ a, s.nextInstr = .sto a → t.mem = s.mem.write a s.acc) ∧
      ((∀ a, s.nextInstr ≠ .sto a) → t.mem = s.mem) := by
  obtain ⟨-, -, u, hu, rfl⟩ := (step_next_iff s t).1 h
  simpa using exec_mem s.nextInstr s.fetch u hu

/-- A list of words read as numbers, at an address inside it, is the word that a memory loaded with it holds there. -/
theorem Memory.getElem?_map_val_eq_read_ofImage (image : List Word) (a : Addr) (h : a.val < image.length) :
    (image.map Fin.val)[a.val]? = some ((Memory.ofImage image).read a).val := by
  simp [Memory.read_ofImage, h]

/-- After an accepted reset, cell `k` holds element `k` of the image (rule R163). -/
theorem hostReset_mem (p : Params) (image inputs : List Nat) (s : State) (h : hostReset p image inputs = .ok s)
    (a : Addr) : image[a.val]? = some (s.mem.read a).val := by
  obtain ⟨hlen, img, ins, himg, -, -, rfl⟩ := (hostReset_ok_iff p image inputs s).1 h
  obtain rfl := wordsOfNumbers_val image img himg
  have ha : a.val < img.length := by simpa [← hlen] using a.isLt
  exact Memory.getElem?_map_val_eq_read_ofImage img a ha

/-- Settles O33: STO's write changes the cell it names alone, no other step writes memory, and reset loads the image. -/
theorem memoryIsWrittenOnlyBySto : Obligations.MemoryIsWrittenOnlyBySto := by
  refine ⟨fun s t h _ => ?_, hostReset_mem⟩
  obtain ⟨hsto, hother⟩ := step_mem s t h
  constructor
  · intro a hi
    have hmem : t.mem = s.mem.write a s.acc := hsto a hi
    refine ⟨?_, fun b hb => ?_⟩
    · rw [hmem, Memory.read_write_same]
    · rw [hmem, Memory.read_write_other _ _ _ _ hb]
  · intro hi
    have hmem : t.mem = s.mem := hother hi
    exact ⟨fun b => by rw [hmem], hmem⟩

end Sys2Proof.Machine
end

section
/-!
SUPPORT. Words by their two fields: every word is one that the assembler builds, and which of those are illegal; and
what fetching an illegal one does.
-/

namespace Sys2Proof

/-- A word is built from one opcode digit and one operand (30_encoding.md rule R61). -/
theorem exists_eq_wordOf (w : Word) : ∃ (op : Fin 10) (x : Addr), w = wordOf op x := by
  have hop : opcodeOf w < 10 := by rw [opcodeOf_eq]; omega
  exact ⟨⟨opcodeOf w, hop⟩, operandOf w, (wordOf_fields w _ rfl).symm⟩

/-- A word with the number of an instruction's encoding decodes to that instruction. -/
theorem decode_eq_of_val_eq_encode {i : Instr} (hi : Laws.RoundTrip.Statement i) (hwf : i.wellFormed = true)
    {w : Word} (hw : w.val = (encode i).val) : decode w = i :=
  (congrArg decode (Fin.ext hw)).trans (hi hwf)

/-- Opcode 9 has two legal operands, 01 and 02 (rule R104). -/
theorem decodeNine_illegal_iff (x : Addr) : (decodeNine x).illegal = true ↔ x.val ≠ 1 ∧ x.val ≠ 2 := by
  unfold decodeNine
  split
  · next h => simp [Instr.illegal, h]
  split
  · next h => simp [Instr.illegal, h]
  split
  · next h => simp [Instr.illegal, h]
  · next h1 h2 => simp [Instr.illegal, h1, h2]

/-- Which words are illegal, by their fields (rule R65). -/
theorem decode_wordOf_illegal_iff (op : Fin 10) (x : Addr) :
    (decode (wordOf op x)).illegal = true ↔ op.val = 4 ∨ (op.val = 9 ∧ x.val ≠ 1 ∧ x.val ≠ 2) := by
  rw [decode_wordOf]
  fin_cases op
  on_goal 10 => simpa using decodeNine_illegal_iff x
  all_goals simp [Instr.illegal]

/-- The illegal words as ranges (rule R65). -/
theorem decode_illegal_iff (w : Word) :
    (decode w).illegal = true ↔
      (400 ≤ w.val ∧ w.val ≤ 499) ∨ w.val = 900 ∨ (903 ≤ w.val ∧ w.val ≤ 999) := by
  obtain ⟨op, x, rfl⟩ := exists_eq_wordOf w
  rw [decode_wordOf_illegal_iff, wordOf_val]
  omega

/-- The illegal words as a finite set of three ranges. -/
def illegalWords : Finset Word :=
  Finset.Icc 400 499 ∪ (Finset.Icc 900 900 ∪ Finset.Icc 903 999)

theorem mem_illegalWords (w : Word) : w ∈ illegalWords ↔ (decode w).illegal = true := by
  rw [decode_illegal_iff]
  simp only [illegalWords, Finset.mem_union, Finset.mem_Icc, Fin.le_def]
  omega

/-- 100 words of opcode 4, the word 900, and 97 more of opcode 9 (rule R65). -/
theorem card_illegalWords : illegalWords.card = 198 := by
  have hnine : Disjoint (Finset.Icc (900 : Word) 900) (Finset.Icc 903 999) := by
    simp
  have hfour : Disjoint (Finset.Icc (400 : Word) 499) (Finset.Icc 900 900 ∪ Finset.Icc 903 999) := by
    simp only [Finset.disjoint_left, Finset.mem_union, Finset.mem_Icc, Fin.le_def]
    omega
  rw [illegalWords, Finset.card_union_of_disjoint hfour, Finset.card_union_of_disjoint hnine]
  simp only [Fin.card_Icc]
  rfl

/-- The illegal words, listed in order, are as many as the set has. -/
theorem length_filter_illegal : ((List.finRange 1000).filter (fun w => (decode w).illegal)).length = 198 := by
  have hset : ((List.finRange 1000).filter (fun w => (decode w).illegal)).toFinset = illegalWords := by
    ext w
    simp [mem_illegalWords]
  rw [← List.toFinset_card_of_nodup ((List.nodup_finRange 1000).filter _), hset, card_illegalWords]

/-- The words that are not illegal are the rest of the 1000. -/
theorem length_filter_not_illegal :
    ((List.finRange 1000).filter (fun w => !(decode w).illegal)).length = 802 := by
  have hsum : ((List.finRange 1000).filter (fun w => (decode w).illegal)).length +
      ((List.finRange 1000).filter (fun w => !(decode w).illegal)).length = 1000 :=
    (List.length_eq_length_filter_add _).symm.trans List.length_finRange
  have hillegal := length_filter_illegal
  omega

namespace Machine

/-- The execute phase of an illegal word is to raise `InvalidOpcode` (60_exceptions.md rule R141). -/
theorem exec_of_illegal (i : Instr) (h : i.illegal = true) (s : State) :
    exec i s = .next (s.raise .invalidOpcode) := by
  cases i with
  | illegalFour x => exact exec_illegalFour s x
  | illegalNineZero => exact exec_illegalNineZero s
  | illegalNineOther x => exact exec_illegalNineOther s x
  | _ => cases h

/-- The step of an enabled engine at an illegal word (30_encoding.md rule R65). -/
theorem step_of_illegal (s : State) (he : s.enabled = true) (h : s.nextInstr.illegal = true) :
    step s = .next (s.fetch.raise .invalidOpcode) := by
  obtain ⟨hf, hh⟩ := s.enabled_iff.1 he
  exact (step_next_iff s _).2 ⟨hf, hh, _, exec_of_illegal s.nextInstr h s.fetch,
    (State.completeStep_of_some _ _ (State.raise_fault _ _)).symm⟩

end Machine

end Sys2Proof
end

section
/-!
PROOFS. The statements of 30_encoding.md sections 1 to 4: the fields of a word, the decode table and the illegal words.
-/

namespace Sys2Proof.Machine

/-- Settles O2: each row's range is the encodings of its instruction, which decode back. -/
theorem decodeTableRowByRow : Obligations.DecodeTableRowByRow := by
  intro w x
  refine ⟨fun h => decode_eq_of_val_eq_encode (Laws.RoundTrip.hlt x) rfl (by simpa [encode] using h),
    decode_eq_of_val_eq_encode (Laws.RoundTrip.add x) rfl,
    decode_eq_of_val_eq_encode (Laws.RoundTrip.sub x) rfl,
    decode_eq_of_val_eq_encode (Laws.RoundTrip.sto x) rfl,
    decode_eq_of_val_eq_encode (Laws.RoundTrip.illegalFour x) rfl,
    decode_eq_of_val_eq_encode (Laws.RoundTrip.lda x) rfl,
    decode_eq_of_val_eq_encode (Laws.RoundTrip.br x) rfl,
    decode_eq_of_val_eq_encode (Laws.RoundTrip.brz x) rfl,
    decode_eq_of_val_eq_encode (Laws.RoundTrip.brp x) rfl,
    decode_eq_of_val_eq_encode Laws.RoundTrip.illegalNineZero rfl,
    decode_eq_of_val_eq_encode Laws.RoundTrip.inp rfl,
    decode_eq_of_val_eq_encode Laws.RoundTrip.out rfl,
    fun ⟨h, hx⟩ => decode_eq_of_val_eq_encode (Laws.RoundTrip.illegalNineOther x) (decide_eq_true hx) h⟩

/-- Settles O5: the ranges by the fields of a word, the two counts from the ranges' sizes, and the illegal step. -/
theorem illegalWordsAreRejected : Obligations.IllegalWordsAreRejected := by
  refine ⟨decode_illegal_iff, length_filter_illegal, length_filter_not_illegal, fun s he hi => ?_⟩
  exact ⟨_, _, step_of_illegal s he hi, State.raise_fault _ _, rfl⟩

/-- Settles O6: the two digit fields of a word, and those of a word built from an opcode and an operand. -/
theorem wordIsOpcodeAndOperand : Obligations.WordIsOpcodeAndOperand := by
  constructor
  · intro w
    rw [operandOf_val, opcodeOf_eq]
    refine ⟨rfl, ?_, rfl, ?_⟩ <;> omega
  · exact fun op x => ⟨wordOf_val op x, opcodeOf_wordOf op x, operandOf_wordOf op x⟩

end Sys2Proof.Machine
end

section
/-!
SUPPORT. What the assembler accepts and refuses: the place of a label in the Symbol Table, the count of lines in pass 1,
the padded image, a line of a known mnemonic, and the spellings of the mnemonics.
-/

namespace Sys2Proof.Machine

/-! The padded image (30_encoding.md rule R81). -/

theorem padImage_length (ws : List Word) (h : ws.length ≤ 100) : (padImage ws).length = 100 := by
  simp [padImage, h]

theorem padImage_getElem?_of_lt (ws : List Word) (k : Nat) (h : k < ws.length) : (padImage ws)[k]? = ws[k]? :=
  List.getElem?_append_left h

theorem padImage_getElem?_of_le (ws : List Word) (k : Nat) (h : ws.length ≤ k) (hk : k < 100) :
    (padImage ws)[k]? = some 0 := by
  rw [padImage, List.getElem?_append_right h, List.getElem?_replicate, if_pos (by omega)]

/-! Pass 1 (rules R76, R77). -/

/-- Pass 1 accepts addresses below 100 alone. -/
theorem passOne_ok_length (lines : List ParsedLine) (addr : Nat) (t0 table : SymbolTable) (ha : addr ≤ 100)
    (h : passOne addr lines t0 = .ok table) : addr + lines.length ≤ 100 := by
  induction lines generalizing addr t0 with
  | nil => exact ha
  | cons p rest ih =>
    obtain ⟨t', hp, hrest⟩ := (passOne_cons_ok addr p rest t0 table).1 h
    obtain ⟨hlt, -⟩ := collectLine_ok addr p t0 t' hp
    have := ih (addr + 1) t' hlt hrest
    rw [List.length_cons]
    omega

/-- Once pass 1 has accepted the first lines, it goes on at the address after them. -/
theorem passOne_append_of_ok (xs ys : List ParsedLine) (addr : Nat) (t0 t : SymbolTable)
    (h : passOne addr xs t0 = .ok t) : passOne addr (xs ++ ys) t0 = passOne (addr + xs.length) ys t := by
  induction xs generalizing addr t0 with
  | nil => cases h; rfl
  | cons p rest ih =>
    obtain ⟨t', hp, hrest⟩ := (passOne_cons_ok addr p rest t0 t).1 h
    rw [List.cons_append, passOne, hp, List.length_cons, Nat.add_comm rest.length,
      ← Nat.add_assoc]
    exact ih (addr + 1) t' hrest

/-- There is no address 100: pass 1 refuses a line there, whatever it holds. -/
theorem passOne_at_hundred (p : ParsedLine) (rest : List ParsedLine) (t : SymbolTable) :
    passOne 100 (p :: rest) t = .error { kind := .programTooLarge, line := p.line } := by
  rw [passOne, collectLine, dif_neg (by decide)]

/-- Pass 1 refuses no line at an address below 100 as too large. -/
theorem passOne_error_kind (lines : List ParsedLine) (addr : Nat) (t0 : SymbolTable) (e : AssemblyError)
    (h : passOne addr lines t0 = .error e) (hlen : addr + lines.length ≤ 100) : e.kind ≠ .programTooLarge := by
  induction lines generalizing addr t0 with
  | nil => cases h
  | cons p rest ih =>
    rw [List.length_cons] at hlen
    rw [passOne] at h
    split at h
    · next hp => cases h; exact (collectLine_error addr p t0 e hp).2 (by omega)
    · exact ih (addr + 1) _ h (by omega)

/-- The label of a line that pass 1 accepts is recorded with the line's address, and is no literal. -/
theorem collectLine_label (addr : Nat) (p : ParsedLine) (t t' : SymbolTable) (l : Token)
    (h : collectLine addr p t = .ok t') (hl : p.label = some l) :
    literalValue l = none ∧ ∃ a : Addr, a.val = addr ∧ lookupLabel t' l = some a := by
  obtain ⟨ha, ⟨hnone, -⟩ | ⟨l', hl', hlit, hnew, rfl⟩⟩ := collectLine_ok addr p t t' h
  · simp [hl] at hnone
  · obtain rfl : l = l' := by simpa [hl] using hl'
    exact ⟨hlit, ⟨addr, ha⟩, rfl, by simp [lookupLabel_append, hnew]⟩

/-- The table of pass 1 has every label at the address of its line. -/
theorem passOne_label (lines : List ParsedLine) (addr : Nat) (t0 table : SymbolTable)
    (h : passOne addr lines t0 = .ok table) (j : Nat) (q : ParsedLine) (l : Token) (hq : lines[j]? = some q)
    (hl : q.label = some l) :
    literalValue l = none ∧ ∃ a : Addr, a.val = addr + j ∧ lookupLabel table l = some a := by
  induction lines generalizing addr t0 j with
  | nil => cases hq
  | cons p rest ih =>
    obtain ⟨t', hp, hrest⟩ := (passOne_cons_ok addr p rest t0 table).1 h
    cases j with
    | zero =>
      obtain rfl : p = q := by simpa using hq
      obtain ⟨hlit, a, ha, hlook⟩ := collectLine_label addr p t0 t' l hp hl
      exact ⟨hlit, a, ha, passOne_keeps rest (addr + 1) t' table hrest l a hlook⟩
    | succ j => simpa [Nat.add_right_comm, Nat.add_assoc] using ih (addr + 1) t' hrest j hq

/-! Pass 2 on a line of a known mnemonic (rules R78 to R83). -/

/-- A label operand resolves to its entry in the table (rule R80). -/
theorem resolveOperand_of_lookupLabel (table : SymbolTable) (l : Token) (a : Addr) (hlit : literalValue l = none)
    (hlook : lookupLabel table l = some a) : resolveOperand table l = .ok a := by
  simp [resolveOperand, hlit, hlook]

/-- Two lines that differ in their mnemonics, but not in the mnemonics' class, are encoded alike (rule R89). -/
theorem encodeLine_eq_of_classOf_eq (table : SymbolTable) (p q : ParsedLine) (t t' : Token) (m m' : Mnemonic)
    (hp : p.mnemonic = some t) (hq : q.mnemonic = some t') (ht : mnemonicOf t = some m) (ht' : mnemonicOf t' = some m')
    (hc : classOf m = classOf m') (ho : p.operand = q.operand) (hx : p.extra = q.extra) :
    encodeLine table p = encodeLine table q := by
  simp only [encodeLine, hp, hq, ht, ht', hc, ho, hx]

/-- A line without extra tokens is encoded by its mnemonic's class. -/
theorem encodeLine_eq_encodeClass (table : SymbolTable) (p : ParsedLine) (t : Token) (m : Mnemonic)
    (hp : p.mnemonic = some t) (ht : mnemonicOf t = some m) (hx : p.extra = []) :
    encodeLine table p = encodeClass table (classOf m) p.operand := by
  simp only [encodeLine, hp, ht, hx]

/-- A line of a known mnemonic that pass 2 accepts has no extra tokens (rule R83). -/
theorem extra_eq_nil_of_encodeLine_ok (table : SymbolTable) (p : ParsedLine) (w : Word)
    (h : encodeLine table p = .ok w) : p.extra = [] := by
  unfold encodeLine at h
  split at h
  · cases h
  split at h
  · cases h
  split at h
  · next hx => exact hx
  · cases h

theorem encodeClass_oneOperand (table : SymbolTable) (op : Fin 10) (l : Token) (a : Addr)
    (h : resolveOperand table l = .ok a) : encodeClass table (.oneOperand op) (some l) = .ok (wordOf op a) := by
  simp [encodeClass, h]

/-- A DAT line's literal in 0..999 is its word (rule R82). -/
theorem encodeClass_data (table : SymbolTable) (v : Word) (l : Token) (h : literalValue l = some v.val) :
    encodeClass table .data (some l) = .ok v := by
  simp [encodeClass, dataValue, h]

/-! The whole assembly (rules R70, R84). -/

/-- An error of `assemble` is one of its passes' errors. -/
theorem assemble_error_iff (source : List (List Char)) (e : AssemblyError) :
    assemble source = .error e ↔
      passOne 0 (parseLines 1 source) [] = .error e ∨
        ∃ table, passOne 0 (parseLines 1 source) [] = .ok table ∧
          passTwo table (parseLines 1 source) = .error e := by
  unfold assemble
  cases hp : passOne 0 (parseLines 1 source) [] with
  | error e' => simp [hp]
  | ok table =>
    cases hw : passTwo table (parseLines 1 source) with
    | error e' => simp [hp, hw]
    | ok ws => simp [hp, hw]

/-- What an accepted source is: at most 100 lines, each with its word at its place in the image. -/
theorem assemble_ok_words (source : List (List Char)) (image : List Word) (h : assemble source = .ok image) :
    ∃ table ws, passOne 0 (parseLines 1 source) [] = .ok table ∧ image = padImage ws ∧
      ws.length = (parseLines 1 source).length ∧ ws.length ≤ 100 ∧
      ∀ (k : Nat) (p : ParsedLine), (parseLines 1 source)[k]? = some p →
        ∃ w, encodeLine table p = .ok w ∧ image[k]? = some w := by
  obtain ⟨table, ws, h1, h2, rfl⟩ := (assemble_ok_iff source image).1 h
  obtain ⟨hlen, hwords⟩ := passTwo_words table _ ws h2
  have hmax := passOne_ok_length _ 0 [] table (Nat.zero_le _) h1
  refine ⟨table, ws, h1, rfl, hlen, by omega, fun k p hk => ?_⟩
  obtain ⟨w, hw, hwk⟩ := hwords k p hk
  obtain ⟨hlt, -⟩ := List.getElem?_eq_some_iff.1 hwk
  exact ⟨w, hw, (padImage_getElem?_of_lt ws k hlt).trans hwk⟩

/-! The spellings (rule R73). -/

/-- The one token that is a given mnemonic. -/
def Mnemonic.spelling : Mnemonic → Token
  | .hlt => ['H', 'L', 'T']
  | .cob => ['C', 'O', 'B']
  | .lda => ['L', 'D', 'A']
  | .sto => ['S', 'T', 'O']
  | .sta => ['S', 'T', 'A']
  | .add => ['A', 'D', 'D']
  | .sub => ['S', 'U', 'B']
  | .br => ['B', 'R']
  | .brz => ['B', 'R', 'Z']
  | .brp => ['B', 'R', 'P']
  | .inp => ['I', 'N']
  | .out => ['O', 'U', 'T']
  | .dat => ['D', 'A', 'T']

/-- Every mnemonic, in the order of `mnemonicOf`. -/
def allMnemonics : List Mnemonic :=
  [.hlt, .cob, .lda, .sto, .sta, .add, .sub, .br, .brz, .brp, .inp, .out, .dat]

theorem mem_allMnemonics (m : Mnemonic) : m ∈ allMnemonics := by
  cases m <;> decide

theorem mnemonicOf_eq_some_iff_spelling (t : Token) (m : Mnemonic) : mnemonicOf t = some m ↔ t = m.spelling := by
  rw [mnemonicOf_eq_some]
  cases m <;> exact Iff.rfl

/-- A token is a mnemonic when it is the spelling of one. -/
theorem mnemonicOf_ne_none_iff (t : Token) : mnemonicOf t ≠ none ↔ t ∈ allMnemonics.map Mnemonic.spelling := by
  rw [Option.ne_none_iff_exists', List.mem_map]
  refine exists_congr fun m => ?_
  rw [mnemonicOf_eq_some_iff_spelling, eq_comm]
  exact (and_iff_right (mem_allMnemonics m)).symm

/-- Only HLT and COB, and STO and STA, share their class (rule R89). -/
theorem classOf_eq_only_for_aliases : ∀ m ∈ allMnemonics, ∀ m' ∈ allMnemonics, classOf m = classOf m' →
    m = m' ∨ (m ∈ [Mnemonic.hlt, .cob] ∧ m' ∈ [Mnemonic.hlt, .cob]) ∨
      (m ∈ [Mnemonic.sto, .sta] ∧ m' ∈ [Mnemonic.sto, .sta]) := by
  decide

end Sys2Proof.Machine
end

section
/-!
PROOFS. The statements of 30_encoding.md section 5: the image, the labels, the 100 lines, and the aliases.
-/

namespace Sys2Proof.Machine

/-- Settles O54: pass 1 admits at most 100 lines, pass 2 gives each its word, and the rest is padding. -/
theorem assembledImageHasHundredCells : Obligations.AssembledImageHasHundredCells := by
  intro source image h
  obtain ⟨table, ws, hpass, rfl, hlen, hmax, hwords⟩ := assemble_ok_words source image h
  refine ⟨padImage_length ws hmax, fun k p hk => ?_, fun k hk hlt => padImage_getElem?_of_le ws k (by omega) hlt⟩
  obtain ⟨w, hw, hwk⟩ := hwords k p hk
  exact ⟨table, w, hpass, hw, hwk⟩

/-- Settles O55: pass 2 reads the table of the whole of pass 1, which has the label at its line's address. -/
theorem labelsResolveForwardAndBackward : Obligations.LabelsResolveForwardAndBackward := by
  intro source image k j p q t l m op h hk hmn ht hclass hoper hj hlabel
  obtain ⟨table, ws, hpass, -, -, -, hwords⟩ := assemble_ok_words source image h
  obtain ⟨w, hw, hwk⟩ := hwords k p hk
  obtain ⟨hlit, a, ha, hlook⟩ := passOne_label _ 0 [] table hpass j q l hj hlabel
  have hline : encodeLine table p = .ok (wordOf op a) := by
    rw [encodeLine_eq_encodeClass table p t m hmn ht (extra_eq_nil_of_encodeLine_ok table p w hw), hclass, hoper]
    exact encodeClass_oneOperand table op l a (resolveOperand_of_lookupLabel table l a hlit hlook)
  obtain rfl : wordOf op a = w := Except.ok.inj (hline.symm.trans hw)
  exact ⟨_, hwk, by rw [wordOf_val, ha, Nat.zero_add]⟩

/-- Settles O57: pass 1 goes on to address 100 and refuses the line there, and refuses no other as too large. -/
theorem programOfOver100LinesIsRefused : Obligations.ProgramOfOver100LinesIsRefused := by
  refine ⟨fun source image h => ?fits, fun source p table hp htake => ?tooLarge, fun source e hlen h => ?kind⟩
  case fits =>
    obtain ⟨table, ws, -, -, hlen, hmax, -⟩ := assemble_ok_words source image h
    exact hlen ▸ hmax
  case tooLarge =>
    obtain ⟨hlt, hget⟩ := List.getElem?_eq_some_iff.1 hp
    have hsplit : (parseLines 1 source).take 100 ++ p :: (parseLines 1 source).drop 101 = parseLines 1 source := by
      rw [← hget, ← List.drop_eq_getElem_cons hlt, List.take_append_drop]
    have htaken : ((parseLines 1 source).take 100).length = 100 := List.length_take_of_le hlt.le
    refine (assemble_error_iff source _).2 (.inl ?_)
    rw [← hsplit, passOne_append_of_ok _ _ 0 [] table htake, htaken]
    exact passOne_at_hundred p _ table
  case kind =>
    rcases (assemble_error_iff source e).1 h with h1 | ⟨table, -, h2⟩
    · exact passOne_error_kind _ 0 [] e h1 (by omega)
    · obtain ⟨p, -, hp, -⟩ := passTwo_error table _ e h2
      exact fun hk => encodeLine_ne_programTooLarge table p (hk ▸ hp)

/-- Settles O58: STA has STO's class and COB has HLT's, and the spellings and classes have no other such pair. -/
theorem aliasesAndDatEncode : Obligations.AliasesAndDatEncode := by
  refine ⟨fun table n label operand extra => ⟨?sta, ?cob, fun a l h => ?staWord, ?cobWord, ?datZero,
    fun v l h => ?datWord⟩, rfl, rfl, mnemonicOf_ne_none_iff, fun t t' m m' ht ht' hc => ?only⟩
  case sta => exact encodeLine_eq_of_classOf_eq table _ _ _ _ .sta .sto rfl rfl rfl rfl rfl rfl rfl
  case cob => exact encodeLine_eq_of_classOf_eq table _ _ _ _ .cob .hlt rfl rfl rfl rfl rfl rfl rfl
  case staWord =>
    exact (encodeLine_eq_encodeClass table _ _ .sta rfl rfl rfl).trans (encodeClass_oneOperand table 3 l a h)
  case cobWord => exact encodeLine_eq_encodeClass table _ _ .cob rfl rfl rfl
  case datZero => exact encodeLine_eq_encodeClass table _ _ .dat rfl rfl rfl
  case datWord => exact (encodeLine_eq_encodeClass table _ _ .dat rfl rfl rfl).trans (encodeClass_data table v l h)
  case only =>
    obtain rfl := (mnemonicOf_eq_some_iff_spelling t m).1 ht
    obtain rfl := (mnemonicOf_eq_some_iff_spelling t' m').1 ht'
    rcases classOf_eq_only_for_aliases m (mem_allMnemonics m) m' (mem_allMnemonics m') hc with
      rfl | ⟨hm, hm'⟩ | ⟨hm, hm'⟩
    · exact .inl rfl
    · exact .inr (.inl ⟨List.mem_map_of_mem hm, List.mem_map_of_mem hm'⟩)
    · exact .inr (.inr ⟨List.mem_map_of_mem hm, List.mem_map_of_mem hm'⟩)

end Sys2Proof.Machine
end

section
/-!
SUPPORT. Two engines side by side (40_cycle.md rule R114): what they must agree on for their execute phases, their steps
and their runs to agree. The agreement is a structure with one field per observable, and each named update of the state
keeps it.
-/

namespace Sys2Proof.Machine

/-- Two engines that agree on all that an execute phase reads: the observable state of `State.SameObservables`, and the
fetch address and the count, which a raised fault records. -/
structure State.Alike (s s' : State) : Prop where
  cells : ∀ a, s.mem.read a = s'.mem.read a
  pc : s.pc = s'.pc
  acc : s.acc = s'.acc
  neg : s.neg = s'.neg
  inTray : s.inTray = s'.inTray
  outTray : s.outTray = s'.outTray
  halted : s.halted = s'.halted
  fault : s.fault = s'.fault
  polarity : s.params.brpPolarity = s'.params.brpPolarity
  fetchAddr : s.fetchAddr = s'.fetchAddr
  cycles : s.cycles = s'.cycles

/-- Memories that read alike do so after the same write. -/
theorem Memory.read_write_congr {m m' : Memory} (h : ∀ b, m.read b = m'.read b) (a b : Addr) (v : Word) :
    (m.write a v).read b = (m'.write a v).read b := by
  by_cases hb : b = a
  · subst hb
    rw [Memory.read_write_same, Memory.read_write_same]
  · rw [Memory.read_write_other _ _ _ _ hb, Memory.read_write_other _ _ _ _ hb, h b]

section
variable {s s' : State}

/-- Both fetches write the fetch address, so it need not agree before. -/
theorem fetch_alike (h : s.SameObservables s') (hc : s.cycles = s'.cycles) :
    s.fetch.Alike s'.fetch := by
  obtain ⟨hcells, hpc, hacc, hneg, hin, hout, hhalted, hfault, hpol⟩ := h
  exact ⟨hcells, congrArg nextAddr hpc, hacc, hneg, hin, hout, hhalted, hfault, hpol, hpc, hc⟩

theorem State.Alike.sameObservables (h : s.Alike s') : s.SameObservables s' :=
  ⟨h.cells, h.pc, h.acc, h.neg, h.inTray, h.outTray, h.halted, h.fault, h.polarity⟩

theorem State.SameObservables.nextInstr_eq (h : s.SameObservables s') : s.nextInstr = s'.nextInstr := by
  obtain ⟨hcells, hpc, -⟩ := h
  rw [State.nextInstr, State.nextInstr, hcells, hpc]

theorem State.SameObservables.enabled_eq (h : s.SameObservables s') : s.enabled = s'.enabled := by
  obtain ⟨-, -, -, -, -, -, hhalted, hfault, -⟩ := h
  rw [State.enabled, State.enabled, hhalted, hfault]

theorem State.SameObservables.runOutcome_eq (h : s.SameObservables s') (hc : s.cycles = s'.cycles) :
    s.runOutcome = s'.runOutcome := by
  obtain ⟨-, -, -, -, -, -, hhalted, hfault, -⟩ := h
  rw [State.runOutcome, State.runOutcome, hhalted, hfault, hc]

/-! Each named update keeps the agreement when both engines are given the same value. -/

theorem State.Alike.setAcc (h : s.Alike s') {v v' : Word} (hv : v = v') : (s.setAcc v).Alike (s'.setAcc v') :=
  { h with acc := hv }

theorem State.Alike.setNeg (h : s.Alike s') {b b' : Bool} (hb : b = b') : (s.setNeg b).Alike (s'.setNeg b') :=
  { h with neg := hb }

theorem State.Alike.halt (h : s.Alike s') : s.halt.Alike s'.halt :=
  { h with halted := rfl }

theorem State.Alike.setInTray (h : s.Alike s') (vs : List Word) : (s.setInTray vs).Alike (s'.setInTray vs) :=
  { h with inTray := rfl }

theorem State.Alike.writeCell (h : s.Alike s') (a : Addr) {v v' : Word} (hv : v = v') :
    (s.writeCell a v).Alike (s'.writeCell a v') :=
  { h with cells := fun b => hv ▸ Memory.read_write_congr h.cells a b v }

theorem State.Alike.outPush (h : s.Alike s') {v v' : Word} (hv : v = v') : (s.outPush v).Alike (s'.outPush v') :=
  { h with outTray := by rw [State.outPush_outTray, State.outPush_outTray, h.outTray, hv] }

theorem State.Alike.branchIf (h : s.Alike s') {taken taken' : Bool} (ht : taken = taken') (a : Addr) :
    (s.branchIf taken a).Alike (s'.branchIf taken' a) :=
  { h with pc := by rw [State.branchIf_eq, State.branchIf_eq, State.setPc_pc, State.setPc_pc, h.pc, ht] }

theorem State.Alike.raise (h : s.Alike s') (k : FaultKind) : (s.raise k).Alike (s'.raise k) :=
  { h with fault := by rw [State.raise_fault, State.raise_fault, h.cycles, h.fetchAddr] }

theorem State.Alike.completeStep (h : s.Alike s') : s.completeStep.Alike s'.completeStep := by
  cases hf : s.fault with
  | none =>
    rw [s.completeStep_of_none hf, s'.completeStep_of_none (h.fault ▸ hf)]
    exact { h with cycles := congrArg (· + 1) h.cycles }
  | some r =>
    rw [s.completeStep_of_some r hf, s'.completeStep_of_some r (h.fault ▸ hf)]
    exact h

/-- The execute phase of one instruction takes agreeing engines to agreeing engines. -/
theorem exec_alike (h : s.Alike s') (i : Instr) :
    ∃ u u', exec i s = .next u ∧ exec i s' = .next u' ∧ u.Alike u' := by
  cases i with
  | hlt x => exact ⟨_, _, exec_hlt s x, exec_hlt s' x, h.halt⟩
  | add a => exact ⟨_, _, exec_add s a, exec_add s' a, h.setAcc (by rw [h.acc, h.cells a])⟩
  | sub a =>
    exact ⟨_, _, exec_sub s a, exec_sub s' a,
      (h.setNeg (by rw [h.acc, h.cells a])).setAcc (by rw [h.acc, h.cells a])⟩
  | sto a => exact ⟨_, _, exec_sto s a, exec_sto s' a, h.writeCell a h.acc⟩
  | lda a => exact ⟨_, _, exec_lda s a, exec_lda s' a, h.setAcc (h.cells a)⟩
  | br a => exact ⟨_, _, exec_br s a, exec_br s' a, h.branchIf rfl a⟩
  | brz a => exact ⟨_, _, exec_brz s a, exec_brz s' a, h.branchIf (by rw [h.acc]) a⟩
  | brp a => exact ⟨_, _, exec_brp s a, exec_brp s' a, h.branchIf (by rw [h.polarity, h.neg]) a⟩
  | inp =>
    cases hin : s.inTray with
    | nil => exact ⟨_, _, exec_inp_nil s hin, exec_inp_nil s' (h.inTray ▸ hin), h.raise .inputTrayUnderflow⟩
    | cons v rest =>
      exact ⟨_, _, exec_inp_cons s v rest hin, exec_inp_cons s' v rest (h.inTray ▸ hin),
        (h.setInTray rest).setAcc rfl⟩
  | out => exact ⟨_, _, exec_out s, exec_out s', h.outPush h.acc⟩
  | illegalFour x => exact ⟨_, _, exec_illegalFour s x, exec_illegalFour s' x, h.raise .invalidOpcode⟩
  | illegalNineZero => exact ⟨_, _, exec_illegalNineZero s, exec_illegalNineZero s', h.raise .invalidOpcode⟩
  | illegalNineOther x =>
    exact ⟨_, _, exec_illegalNineOther s x, exec_illegalNineOther s' x, h.raise .invalidOpcode⟩

/-- Agreeing engines with equal counts step alike, and their counts stay equal. -/
theorem step_sameObservables (h : s.SameObservables s') (hc : s.cycles = s'.cycles) {t : State}
    (ht : step s = .next t) :
    ∃ t', step s' = .next t' ∧ t.SameObservables t' ∧ t.cycles = t'.cycles := by
  obtain ⟨hf, hh, u, hu, rfl⟩ := (step_next_iff s t).1 ht
  obtain ⟨v, u', hv, hu', halike⟩ := exec_alike (fetch_alike h hc) s.nextInstr
  obtain rfl : u = v := by simpa [hu] using hv
  have hen : s'.enabled = true := h.enabled_eq ▸ s.enabled_iff.2 ⟨hf, hh⟩
  obtain ⟨hf', hh'⟩ := s'.enabled_iff.1 hen
  have hstep : step s' = .next u'.completeStep :=
    (step_next_iff s' _).2 ⟨hf', hh', u', h.nextInstr_eq ▸ hu', rfl⟩
  exact ⟨_, hstep, halike.completeStep.sameObservables, halike.completeStep.cycles⟩

end

/-- Agreeing engines with equal counts go through the loop of rule R107 alike. -/
theorem runLoop_sameObservables (n : Nat) {s s' : State} (h : s.SameObservables s')
    (hc : s.cycles = s'.cycles) :
    (runLoop n s).SameObservables (runLoop n s') ∧
      (runLoop n s).cycles = (runLoop n s').cycles := by
  induction n generalizing s s' with
  | zero => exact ⟨h, hc⟩
  | succ n ih =>
    cases he : s.enabled with
    | true =>
      obtain ⟨t, ht⟩ := step_next_of_enabled s he
      obtain ⟨t', ht', hobs, hcyc⟩ := step_sameObservables h hc ht
      rw [runLoop_succ_next n s t ht, runLoop_succ_next n s' t' ht']
      exact ih hobs hcyc
    | false =>
      rw [runLoop_stopped _ s he, runLoop_stopped _ s' (h.enabled_eq ▸ he)]
      exact ⟨h, hc⟩

/-- An engine that can still step has used its budget (rule R107). -/
theorem State.runOutcome_of_enabled (s : State) (h : s.enabled = true) : s.runOutcome = .budgetExceeded s.cycles := by
  obtain ⟨hf, hh⟩ := s.enabled_iff.1 h
  simp [State.runOutcome, hf, hh]

end Sys2Proof.Machine
end

section
/-!
PROOFS. The statements of 40_cycle.md: the fetch (rule R101), `run(0)` (rule R109) and determinism (rule R114).
-/

namespace Sys2Proof.Machine

/-- Settles O37: an execute phase after the fetch reads agreeing values alone; a run starts both counts at 0. -/
theorem outcomeDependsOnObservableStateAlone : Obligations.OutcomeDependsOnObservableStateAlone := by
  intro s s' h
  constructor
  · intro t hc ht
    obtain ⟨t', ht', hobs, -⟩ := step_sameObservables h hc ht
    exact ⟨t', ht', hobs⟩
  · intro n
    have hstart : s.startRun.SameObservables s'.startRun := h
    obtain ⟨hobs, hcyc⟩ := runLoop_sameObservables n hstart rfl
    exact ⟨hobs.runOutcome_eq hcyc, hobs⟩

/-- Settles O8: field by field, PC as a number. -/
theorem fetchReadsThenAdvances : Obligations.FetchReadsThenAdvances :=
  fun s => ⟨s.fetch_fetchAddr, s.fetch_ir, nextAddr_val s.pc, rfl⟩

/-- Settles O47: the loop of budget 0 leaves the started run, which can still step, at count 0. -/
theorem runZeroExecutesNothing : Obligations.RunZeroExecutesNothing := by
  intro s h
  have hstate : runState 0 s = s.startRun := runLoop_zero s.startRun
  have henabled : s.startRun.enabled = true := h
  refine ⟨?_, hstate⟩
  calc (run 0 s).1 = s.startRun.runOutcome := congrArg State.runOutcome hstate
    _ = .budgetExceeded 0 := s.startRun.runOutcome_of_enabled henabled

end Sys2Proof.Machine
end

section
/-!
SUPPORT. Decode and encode are inverse to each other, so a row of the decode table is the word of its instruction; and
what an execute phase without a fault does to HALTED.
-/

namespace Sys2Proof

/-- Opcode 9 loses no operand (30_encoding.md rule R104). -/
theorem encode_decodeNine (x : Addr) : encode (decodeNine x) = wordOf 9 x := by
  unfold decodeNine
  split
  · next h => exact congrArg (wordOf 9) (Fin.ext h.symm)
  split
  · next h => exact congrArg (wordOf 9) (Fin.ext h.symm)
  split
  · next h => exact congrArg (wordOf 9) (Fin.ext h.symm)
  · rfl

/-- The decode loses nothing of a word (rule R68). -/
theorem encode_decode (w : Word) : encode (decode w) = w := by
  obtain ⟨op, x, rfl⟩ := exists_eq_wordOf w
  rw [decode_wordOf]
  fin_cases op
  on_goal 10 => exact encode_decodeNine x
  all_goals rfl

/-- The words of a well-formed instruction's row: its encoding alone (rule R64). -/
theorem decode_eq_iff {i : Instr} (hi : Laws.RoundTrip.Statement i) (hwf : i.wellFormed = true) (w : Word) :
    decode w = i ↔ w.val = (encode i).val :=
  ⟨fun h => congrArg Fin.val ((encode_decode w).symm.trans (congrArg encode h)), decode_eq_of_val_eq_encode hi hwf⟩

namespace Machine

/-- HALTED is written by HLT alone (10_state.md rule R26). -/
theorem ExecCompletes.halted_eq {s u : State} {i : Instr} (h : ExecCompletes s i u) (hi : ∀ x, i ≠ .hlt x) :
    u.halted = s.halted := by
  cases h with
  | hlt x => exact absurd rfl (hi x)
  | _ => rfl

end Machine

end Sys2Proof
end

section
/-!
PROOFS. The statements of 41_halt.md: what HLT does (rule R115), and that nothing else stops cleanly (rule R117).
-/

namespace Sys2Proof.Machine

/-- Settles O15: an enabled engine is not halted, HLT alone writes HALTED, and a halted engine is not enabled. -/
theorem onlyHltStopsCleanly : Obligations.OnlyHltStopsCleanly := by
  constructor
  · intro s t h hf
    obtain ⟨he, u, hu, rfl⟩ := (step_next_without_fault_iff s t).1 ⟨h, hf⟩
    have hrunning : s.fetch.halted = false := (s.enabled_iff.1 he).2
    constructor
    · intro hhalted
      by_contra hi
      have hkept : u.halted = false := (hu.halted_eq (not_exists.1 hi)).trans hrunning
      exact Bool.false_ne_true (hkept.symm.trans hhalted)
    · rintro ⟨x, hx⟩
      rw [hx] at hu
      cases hu
      rfl
  · intro s t hhalted h
    have hrunning : s.halted = false := (s.enabled_iff.1 (enabled_of_step_next s t h)).2
    exact Bool.false_ne_true (hrunning.symm.trans hhalted)

/-- Settles O13: the execute phase is the one write, and HLT's row is its encodings, the operand itself. -/
theorem hltSetsHaltedAlone : Obligations.HltSetsHaltedAlone := by
  refine ⟨fun x s => ⟨s.halt, exec_hlt s x, s.halt_halted, s.halt_neg, fun _ => rfl, rfl⟩, fun w x => ?_, rfl, rfl⟩
  have hword : (encode (.hlt x)).val = x.val := by simp [encode]
  rw [decode_eq_iff (Laws.RoundTrip.hlt x) rfl, hword]

end Sys2Proof.Machine
end

section
/-!
SUPPORT. The two results of SUB, over the exact difference `raw` of 42_arithmetic.md rule R120.
-/

namespace Sys2Proof.Machine

/-- NEG after SUB is the sign of `raw`. -/
theorem borrowFlag_eq_decide (acc m : Word) : borrowFlag acc m = decide ((acc.val : Int) - m.val < 0) := rfl

/-- ACC after a borrow is `raw` brought into 0..999. -/
theorem differenceWord_val_of_neg {acc m : Word} (h : (acc.val : Int) - m.val < 0) :
    ((differenceWord acc m).val : Int) = ((acc.val : Int) - m.val + 1000) % 1000 := by
  have hlt : acc.val < m.val := by omega
  rw [differenceWord_val, if_pos hlt]
  omega

/-- ACC with no borrow is `raw` itself. -/
theorem differenceWord_val_of_nonneg {acc m : Word} (h : 0 ≤ (acc.val : Int) - m.val) :
    ((differenceWord acc m).val : Int) = (acc.val : Int) - m.val := by
  have hge : ¬ acc.val < m.val := by omega
  rw [differenceWord_val, if_neg hge]
  omega

end Sys2Proof.Machine
end

section
/-!
PROOFS. The statements of 42_arithmetic.md: what ADD and SUB do, and that they touch nothing else (rules R118, R120).
-/

namespace Sys2Proof.Machine

/-- Settles O16: ADD's row is its encoding, and the execute phase is the one write of ACC with the modular sum. -/
theorem addIsModThousand : Obligations.AddIsModThousand := by
  intro a s
  have hrow : ∀ w, decode w = .add a ↔ w.val = 100 + a.val := decode_eq_iff (Laws.RoundTrip.add a) rfl
  exact ⟨hrow, _, exec_add s a, sumWord_val _ _, State.setAcc_neg _ _, fun _ => rfl, rfl⟩

/-- Settles O17: SUB's row is its encoding, and the execute phase writes NEG and ACC alone, by the sign of `raw`. -/
theorem subRecordsTheBorrow : Obligations.SubRecordsTheBorrow := by
  intro a s
  have hrow : ∀ w, decode w = .sub a ↔ w.val = 200 + a.val := decode_eq_iff (Laws.RoundTrip.sub a) rfl
  refine ⟨hrow, _, exec_sub s a, fun hneg => ?_, fun hnonneg => ?_, fun _ => rfl, rfl⟩
  · exact ⟨(borrowFlag_eq_decide _ _).trans (decide_eq_true hneg), differenceWord_val_of_neg hneg⟩
  · exact ⟨(borrowFlag_eq_decide _ _).trans (decide_eq_false hnonneg.not_gt), differenceWord_val_of_nonneg hnonneg⟩

end Sys2Proof.Machine
end

section
/-!
PROOFS. The statements of 43_transfer.md: what STO and LDA do, and that they touch nothing else (rules R125, R127).
-/

namespace Sys2Proof.Machine

/-- Settles O19: STO's row is its encoding, and the execute phase is the one write of ACC to the cell at the operand. -/
theorem stoWritesTheNamedCell : Obligations.StoWritesTheNamedCell := by
  intro a s
  have hrow : ∀ w, decode w = .sto a ↔ w.val = 300 + a.val := decode_eq_iff (Laws.RoundTrip.sto a) rfl
  refine ⟨hrow, _, exec_sto s a, fun d hd => ?_, State.writeCell_acc _ _ _, State.writeCell_neg _ _ _, rfl⟩
  obtain rfl : a = d := (effectiveAddr_eq a).symm.trans hd
  exact ⟨rfl, Memory.read_write_same _ _ _, fun b hb => Memory.read_write_other _ _ _ _ hb⟩

/-- Settles O20: LDA's row is its encoding, and the execute phase is the one write of ACC with the cell's value. -/
theorem ldaCopiesTheNamedCell : Obligations.LdaCopiesTheNamedCell := by
  intro a s
  have hrow : ∀ w, decode w = .lda a ↔ w.val = 500 + a.val := decode_eq_iff (Laws.RoundTrip.lda a) rfl
  exact ⟨hrow, _, exec_lda s a, State.setAcc_acc _ _, State.setAcc_neg _ _, fun _ => rfl, rfl⟩

end Sys2Proof.Machine
end

section
/-!
SUPPORT. What the three branches do, said once: each is `branchIf` with the condition of its own rule, in the execute
phase and in the step; and the loop of a BR to its own address.
-/

namespace Sys2Proof.Machine

section
variable {s : State} {i : Instr} {a : Addr}

/-- The step of an enabled engine whose execute phase completes is that phase, counted (40_cycle.md rule R107). -/
theorem step_eq_of_completes {u : State} (he : s.enabled = true) (hu : ExecCompletes s.fetch s.nextInstr u) :
    step s = .next u.countCycle :=
  ((step_next_without_fault_iff s u.countCycle).2 ⟨he, u, hu, rfl⟩).1

/-- The conditions of the three branches, rules R130 to R132. -/
theorem branch_completes (s : State) (hi : i = .br a ∨ i = .brz a ∨ i = .brp a) :
    ∃ taken, ExecCompletes s i (s.branchIf taken a) ∧ (taken = true ↔ s.takesBranch i a) := by
  rcases hi with rfl | rfl | rfl
  · exact ⟨true, .br a, iff_of_true rfl (takesBranch_br s a)⟩
  · exact ⟨zeroCondition s.acc, .brz a, (takesBranch_brz s a).symm⟩
  · exact ⟨brpCondition s.params.brpPolarity s.neg, .brp a, (takesBranch_brp s a).symm⟩

/-- The fetch leaves what a branch condition reads. -/
theorem takesBranch_fetch_iff : s.fetch.takesBranch i a ↔ s.takesBranch i a := Iff.rfl

theorem State.branchIf_pc_of_taken {taken : Bool} (h : taken = true) : (s.branchIf taken a).pc = a := if_pos h

theorem State.branchIf_pc_of_not_taken {taken : Bool} (h : ¬ taken = true) : (s.branchIf taken a).pc = s.pc := if_neg h

/-- A branch writes PC alone (rule R129). -/
theorem State.branchIf_frame (s : State) (taken : Bool) (a : Addr) :
    s.branchIf taken a = { s with pc := (s.branchIf taken a).pc } := rfl

theorem sameCells_branchIf (s : State) (taken : Bool) (a : Addr) : SameCells s (s.branchIf taken a) := fun _ => rfl

/-- BR's step leaves PC at the operand (rule R130). -/
theorem step_br (he : s.enabled = true) (hi : s.nextInstr = .br a) :
    step s = .next (s.fetch.branchIf true a).countCycle :=
  step_eq_of_completes he (hi ▸ .br a)

/-- After the step of a BR to its own address, the engine is again at that BR, one cycle later. -/
theorem step_br_to_itself (he : s.enabled = true) (hi : s.nextInstr = .br s.pc) :
    ∃ t, step s = .next t ∧ t.enabled = true ∧ t.nextInstr = .br t.pc ∧ t.cycles = s.cycles + 1 :=
  ⟨_, step_br he hi, he, hi, rfl⟩

/-- The loop at a BR to its own address uses its whole budget and can still step. -/
theorem runLoop_br_to_itself (n : Nat) (he : s.enabled = true) (hi : s.nextInstr = .br s.pc) :
    (runLoop n s).enabled = true ∧ (runLoop n s).cycles = s.cycles + n := by
  induction n generalizing s with
  | zero => exact ⟨he, rfl⟩
  | succ n ih =>
    obtain ⟨t, ht, het, hit, hcycles⟩ := step_br_to_itself he hi
    obtain ⟨henabled, hcount⟩ := ih het hit
    rw [runLoop_succ_next n s t ht]
    exact ⟨henabled, by omega⟩

end

end Sys2Proof.Machine
end

section
/-!
PROOFS. The statements of 44_branch.md: what each branch tests (rules R130 to R132), and that a branch writes PC alone
(rule R129).
-/

namespace Sys2Proof.Machine

/-- Settles O21: BR's row is its encoding, its step overwrites the fetch's advance, and each step of a BR to itself
counts one cycle of the budget. -/
theorem brSetsPc : Obligations.BrSetsPc := by
  intro a s
  have hrow : ∀ w, decode w = .br a ↔ w.val = 600 + a.val := decode_eq_iff (Laws.RoundTrip.br a) rfl
  refine ⟨hrow, ⟨_, exec_br s a, State.branchIf_pc_of_taken rfl, sameCells_branchIf s true a, rfl⟩,
    fun he hi => ⟨_, step_br he hi, State.branchIf_pc_of_taken (s := s.fetch) rfl⟩, ?_⟩
  rintro he hi rfl n
  obtain ⟨henabled, hcycles⟩ := runLoop_br_to_itself (s := s.startRun) n he hi
  have hcount : (runLoop n s.startRun).cycles = n := hcycles.trans (Nat.zero_add n)
  calc (run n s).1 = .budgetExceeded (runLoop n s.startRun).cycles := State.runOutcome_of_enabled _ henabled
    _ = .budgetExceeded n := by rw [hcount]

/-- Settles O22: BRZ's row is its encoding, and the execute phase writes PC alone, by whether ACC is 0. -/
theorem brzTestsAcc : Obligations.BrzTestsAcc := by
  intro a s
  have hrow : ∀ w, decode w = .brz a ↔ w.val = 700 + a.val := decode_eq_iff (Laws.RoundTrip.brz a) rfl
  exact ⟨hrow, _, exec_brz s a, fun hzero => State.branchIf_pc_of_taken ((zeroCondition_iff _).2 hzero),
    fun hnonzero => State.branchIf_pc_of_not_taken (mt (zeroCondition_iff _).1 hnonzero),
    sameCells_branchIf s _ a, State.branchIf_frame s _ a⟩

/-- Settles O23: BRP's row is its encoding, and the execute phase writes PC alone, by NEG under either polarity. -/
theorem brpTestsNegByPolarity : Obligations.BrpTestsNegByPolarity := by
  refine ⟨fun a s => ?_, rfl, rfl, State.fresh_neg⟩
  have hrow : ∀ w, decode w = .brp a ↔ w.val = 800 + a.val := decode_eq_iff (Laws.RoundTrip.brp a) rfl
  refine ⟨hrow, _, exec_brp s a, fun hpol => ?_, fun hpol => ?_, State.branchIf_neg s _ a, sameCells_branchIf s _ a,
    State.branchIf_frame s _ a⟩
  · simp only [State.branchIf_pc, hpol, brpCondition_nonNegative, Bool.not_eq_true']
  · simp only [State.branchIf_pc, hpol, brpCondition_negativeSet]

/-- Settles O24: in the execute phase and in the step a branch is `branchIf` with its own condition, which the fetch does
not change, and the step leaves the engine enabled. -/
theorem branchesWritePcAlone : Obligations.BranchesWritePcAlone := by
  intro a i s hi
  constructor
  · obtain ⟨taken, hexec, htaken⟩ := branch_completes s hi
    exact ⟨_, hexec.exec_eq, fun h => State.branchIf_pc_of_taken (htaken.2 h),
      fun h => State.branchIf_pc_of_not_taken (mt htaken.1 h), State.branchIf_acc s taken a,
      State.branchIf_neg s taken a, sameCells_branchIf s taken a, State.branchIf_frame s taken a⟩
  · rintro he rfl
    obtain ⟨taken, hexec, htaken⟩ := branch_completes s.fetch hi
    rw [takesBranch_fetch_iff] at htaken
    refine ⟨_, step_eq_of_completes he hexec, fun h => State.branchIf_pc_of_taken (htaken.2 h), fun h => ?_, he,
      rfl, rfl⟩
    have hpc : (s.fetch.branchIf taken a).pc = nextAddr s.pc := State.branchIf_pc_of_not_taken (mt htaken.1 h)
    exact congrArg Fin.val hpc

end Sys2Proof.Machine
end

section
/-!
PROOFS. The statements of 45_io.md: what IN and OUT do, and that they touch nothing else (rules R135, R137).
-/

namespace Sys2Proof.Machine

/-- Settles O25: IN's row is its encoding, and the execute phase is the pop and the write of ACC on a nonempty tray, the
raise on an empty one. -/
theorem inpTakesTheFrontValue : Obligations.InpTakesTheFrontValue := by
  have hrow : ∀ w, decode w = .inp ↔ w.val = 901 := decode_eq_iff Laws.RoundTrip.inp rfl
  refine ⟨hrow, fun s v rest hcons => ?_, fun s hnil => ?_⟩
  · exact ⟨_, exec_inp_cons s v rest hcons, State.setAcc_acc _ v, State.setInTray_inTray s rest,
      State.setInTray_neg s rest, fun _ => rfl, rfl⟩
  · exact ⟨_, _, exec_inp_nil s hnil, State.raise_fault s .inputTrayUnderflow, rfl⟩

/-- Settles O27: OUT's row is its encoding, and the execute phase is the one push of ACC on the output tray. -/
theorem outAppendsAcc : Obligations.OutAppendsAcc := by
  have hrow : ∀ w, decode w = .out ↔ w.val = 902 := decode_eq_iff Laws.RoundTrip.out rfl
  exact ⟨hrow, fun s => ⟨_, exec_out s, State.outPush_outTray s s.acc, State.outPush_acc s s.acc, fun _ => rfl, rfl⟩⟩

end Sys2Proof.Machine
end

section
/-!
SUPPORT. What a run that can still step has done: each step of its budget was counted, and its outcome says so.
-/

namespace Sys2Proof.Machine

/-- A completed execute phase leaves CYCLES to the run controller (rule R32). -/
theorem ExecCompletes.cycles_eq {s u : State} {i : Instr} (h : ExecCompletes s i u) : u.cycles = s.cycles := by
  cases h <;> rfl

/-- A step without a fault is counted once (40_cycle.md rule R107). -/
theorem step_cycles_of_fault_none {s t : State} (h : step s = .next t) (hf : t.fault = none) :
    t.cycles = s.cycles + 1 := by
  obtain ⟨-, u, hu, rfl⟩ := (step_next_without_fault_iff s t).1 ⟨h, hf⟩
  exact congrArg (· + 1) hu.cycles_eq

/-- The loop enables no stopped engine: one that ends enabled started so. -/
theorem enabled_of_runLoop_enabled (n : Nat) (s : State) (h : (runLoop n s).enabled = true) : s.enabled = true := by
  by_contra hstopped
  rw [runLoop_stopped n s (Bool.eq_false_of_not_eq_true hstopped)] at h
  exact hstopped h

/-- A loop that ends enabled has counted its whole budget. -/
theorem runLoop_cycles_of_enabled (n : Nat) (s : State) (h : (runLoop n s).enabled = true) :
    (runLoop n s).cycles = s.cycles + n := by
  induction n generalizing s with
  | zero => rfl
  | succ n ih =>
    obtain ⟨t, ht⟩ := step_next_of_enabled s (enabled_of_runLoop_enabled _ s h)
    rw [runLoop_succ_next n s t ht] at h ⊢
    have hfault : t.fault = none := (t.enabled_iff.1 (enabled_of_runLoop_enabled n t h)).1
    have hcount : t.cycles = s.cycles + 1 := step_cycles_of_fault_none ht hfault
    have hrest : (runLoop n t).cycles = t.cycles + n := ih t h
    omega

/-- A run that ends enabled has counted its whole budget, from 0 (rule R107). -/
theorem runState_cycles_of_enabled (m : Nat) (s : State) (h : (runState m s).enabled = true) :
    (runState m s).cycles = m :=
  (runLoop_cycles_of_enabled m s.startRun h).trans (Nat.zero_add m)

/-- `BudgetExceeded` is the outcome of an engine that can still step, and of no other (rules R107, R108). -/
theorem State.runOutcome_eq_budgetExceeded_iff (s : State) (n : Nat) :
    s.runOutcome = .budgetExceeded n ↔ s.enabled = true ∧ s.cycles = n := by
  constructor
  · intro h
    cases hf : s.fault with
    | some r => simp [State.runOutcome, hf] at h
    | none =>
      cases hh : s.halted with
      | true => simp [State.runOutcome, hf, hh] at h
      | false => exact ⟨s.enabled_iff.2 ⟨hf, hh⟩, by simpa [State.runOutcome, hf, hh] using h⟩
  · rintro ⟨he, rfl⟩
    exact s.runOutcome_of_enabled he

/-- A run returns `BudgetExceeded` exactly when it ends enabled, and then of its whole budget. -/
theorem run_eq_budgetExceeded_iff (m n : Nat) (s : State) :
    (run m s).1 = .budgetExceeded n ↔ (runState m s).enabled = true ∧ n = m := by
  have houtcome := (runState m s).runOutcome_eq_budgetExceeded_iff n
  refine houtcome.trans (and_congr_right fun he => ?_)
  rw [runState_cycles_of_enabled m s he, eq_comm]

end Sys2Proof.Machine
end

section
/-!
PROOFS. The statement of 60_exceptions.md: budget exhaustion is not a fault (rule R144).
-/

namespace Sys2Proof.Machine

/-- Settles O49: `BudgetExceeded` is the outcome of the enabled engines alone, which have no fault and can step. -/
theorem budgetExhaustionCanBeStepped : Obligations.BudgetExhaustionCanBeStepped := by
  intro s m _
  refine ⟨fun he => (run_eq_budgetExceeded_iff m m s).2 ⟨he, rfl⟩, fun n h => ?_⟩
  obtain ⟨he, hn⟩ := (run_eq_budgetExceeded_iff m n s).1 h
  exact ⟨hn, ((runState m s).enabled_iff.1 he).1, step_next_of_enabled _ he⟩

end Sys2Proof.Machine
end

section
/-!
PROOFS. The statement of 70_reset_and_hazards.md: what a step counts (rule R166).
-/

namespace Sys2Proof.Machine

/-- A step that faults is not counted (40_cycle.md rule R113). -/
theorem step_cycles_of_fault_ne_none {s t : State} (h : step s = .next t) (hf : t.fault ≠ none) :
    t.cycles = s.cycles := by
  obtain ⟨-, -, u, hu, rfl⟩ := (step_next_iff s t).1 h
  rw [State.completeStep_fault] at hf
  obtain ⟨-, -, -, hcycles⟩ := exec_keeps s.nextInstr s.fetch u hu
  calc u.completeStep.cycles = u.cycles := by rw [State.completeStep_cycles, if_neg hf]
    _ = s.fetch.cycles := hcycles
    _ = s.cycles := s.fetch_cycles

/-- Settles O12: a completed step is counted once, and no phase of a faulting one writes CYCLES. -/
theorem everyInstructionCountsOneCycle : Obligations.EveryInstructionCountsOneCycle :=
  fun _ _ h => ⟨step_cycles_of_fault_none h, step_cycles_of_fault_ne_none h⟩

end Sys2Proof.Machine
end

section
/-!
SUPPORT. The whole decode is well-formed (30_encoding.md rule R64).
-/

namespace Sys2Proof

/-- Opcode 9 keeps its last row for the operands from 03 on (rule R104). -/
theorem decodeNine_wellFormed (x : Addr) : (decodeNine x).wellFormed = true := by
  unfold decodeNine
  split
  · rfl
  split
  · rfl
  split
  · rfl
  · exact decide_eq_true (by omega)

/-- Every word has a reading that the opcode table admits (rules R64, R67). -/
theorem decode_wellFormed (w : Word) : (decode w).wellFormed = true := by
  obtain ⟨op, x, rfl⟩ := exists_eq_wordOf w
  rw [decode_wordOf]
  fin_cases op
  on_goal 10 => exact decodeNine_wellFormed x
  all_goals rfl

end Sys2Proof
end

section
/-!
PROOFS. The statements of 30_encoding.md sections 1 and 2 on decode and encode together.
-/

namespace Sys2Proof.Machine

/-- Settles O3: the round trip of each row, by the opcode digit and the operand of its word. -/
theorem decodeOfEncodeIsIdentity : Obligations.DecodeOfEncodeIsIdentity := by
  intro i
  change Laws.RoundTrip.Statement i
  cases i with
  | hlt x => exact Laws.RoundTrip.hlt x
  | add a => exact Laws.RoundTrip.add a
  | sub a => exact Laws.RoundTrip.sub a
  | sto a => exact Laws.RoundTrip.sto a
  | lda a => exact Laws.RoundTrip.lda a
  | br a => exact Laws.RoundTrip.br a
  | brz a => exact Laws.RoundTrip.brz a
  | brp a => exact Laws.RoundTrip.brp a
  | inp => exact Laws.RoundTrip.inp
  | out => exact Laws.RoundTrip.out
  | illegalFour x => exact Laws.RoundTrip.illegalFour x
  | illegalNineZero => exact Laws.RoundTrip.illegalNineZero
  | illegalNineOther x => exact Laws.RoundTrip.illegalNineOther x

/-- Settles O4: by the two fields of the word. -/
theorem encodeOfDecodeIsIdentity : Obligations.EncodeOfDecodeIsIdentity :=
  fun w => ⟨decode_wellFormed w, encode_decode w⟩

/-- Settles O1: the decode of each of the sixteen words, computed. -/
theorem sampleWordsDecode : Obligations.SampleWordsDecode := by
  unfold Obligations.SampleWordsDecode
  decide

end Sys2Proof.Machine
end

section
/-!
SUPPORT. The step that raises a fault, said once: it is the fetch and the raise, of one of two kinds; what such a step
and every other one keep, and along a whole run too.
-/

namespace Sys2Proof.Machine

/-- The step of an enabled engine at an IN with the input tray empty (60_exceptions.md rule R142). -/
theorem step_of_inp_nil (s : State) (he : s.enabled = true) (hi : s.nextInstr = .inp) (hin : s.inTray = []) :
    step s = .next (s.fetch.raise .inputTrayUnderflow) := by
  obtain ⟨hf, hh⟩ := s.enabled_iff.1 he
  have hexec : exec s.nextInstr s.fetch = .next (s.fetch.raise .inputTrayUnderflow) := hi ▸ exec_inp_nil s.fetch hin
  exact (step_next_iff s _).2 ⟨hf, hh, _, hexec, (State.completeStep_of_some _ _ (State.raise_fault _ _)).symm⟩

section
variable {s t : State}

/-- A step raises no fault, or is the fetch and the raise of the kind that the instruction calls for
(60_exceptions.md rules R140 to R142). -/
theorem step_fault_cases (h : step s = .next t) :
    t.fault = none ∨
      (t = s.fetch.raise .invalidOpcode ∧ s.nextInstr.illegal = true) ∨
      (t = s.fetch.raise .inputTrayUnderflow ∧ s.nextInstr = .inp ∧ s.inTray = []) := by
  have he : s.enabled = true := enabled_of_step_next s t h
  obtain ⟨hf, -, u, hu, htu⟩ := (step_next_iff s t).1 h
  rcases exec_fault s.nextInstr s.fetch u hu with hkept | ⟨-, hill⟩ | ⟨-, hi, hin⟩
  · have hu_none : u.fault = none := hkept.trans hf
    exact .inl (htu ▸ u.completeStep_fault.trans hu_none)
  · have hstep := step_of_illegal s he hill
    exact .inr (.inl ⟨Host.Outcome.next.inj (h.symm.trans hstep), hill⟩)
  · have hstep := step_of_inp_nil s he hi hin
    exact .inr (.inr ⟨Host.Outcome.next.inj (h.symm.trans hstep), hi, hin⟩)

/-- A step that raises a fault is the fetch and the raise, of a kind that the engine raises. -/
theorem step_eq_raise_of_fault_ne_none (h : step s = .next t) (hf : t.fault ≠ none) :
    ∃ k, t = s.fetch.raise k ∧ (k = .invalidOpcode ∨ k = .inputTrayUnderflow) := by
  rcases step_fault_cases h with hnone | ⟨ht, -⟩ | ⟨ht, -⟩
  · exact absurd hnone hf
  · exact ⟨_, ht, .inl rfl⟩
  · exact ⟨_, ht, .inr rfl⟩

/-- A step raises a fault exactly when its instruction calls for one. -/
theorem step_fault_ne_none_iff (h : step s = .next t) : t.fault ≠ none ↔ s.faultsNext := by
  have he : s.enabled = true := enabled_of_step_next s t h
  constructor
  · intro hf
    rcases step_fault_cases h with hnone | ⟨-, hill⟩ | ⟨-, hinp⟩
    · exact absurd hnone hf
    · exact .inl hill
    · exact .inr hinp
  · rintro (hill | ⟨hi, hin⟩)
    · rw [step_of_illegal s he hill] at h
      cases h
      simp
    · rw [step_of_inp_nil s he hi hin] at h
      cases h
      simp

/-- No step changes a parameter (00_scope.md rule R7). -/
theorem step_params (h : step s = .next t) : t.params = s.params := by
  obtain ⟨-, -, u, hu, rfl⟩ := (step_next_iff s t).1 h
  obtain ⟨hparams, -, -, -⟩ := exec_keeps s.nextInstr s.fetch u hu
  exact u.completeStep_params.trans hparams

/-- Every step keeps the canonical form of memory. -/
theorem step_mem_wf (h : step s = .next t) (hwf : s.mem.wf) : t.mem.wf := by
  obtain ⟨hsto, hother⟩ := step_mem s t h
  by_cases hi : ∃ a, s.nextInstr = .sto a
  · obtain ⟨a, ha⟩ := hi
    rw [hsto a ha]
    exact Memory.wf_write s.mem a s.acc hwf
  · rw [hother (not_exists.1 hi)]
    exact hwf

end

/-- The loop leaves a faulted engine as it is. -/
theorem runLoop_faulted (n : Nat) {s : State} (h : s.fault ≠ none) : runLoop n s = s :=
  runLoop_stopped n s (Bool.eq_false_of_not_eq_true fun he => h (s.enabled_iff.1 he).1)

/-- The part of the invariant that speaks of FAULT: a faulted engine is not halted and holds a sound record. -/
def State.FaultSound (s : State) : Prop :=
  ∀ r, s.fault = some r → s.halted = false ∧ r.sound s.cycles

theorem State.inv_iff (s : State) : s.Inv ↔ s.mem.wf ∧ s.FaultSound := Iff.rfl

theorem State.faultSound_of_fault_none {s : State} (h : s.fault = none) : s.FaultSound := by
  intro r hr
  rw [h] at hr
  cases hr

/-- Whatever the state before, a step leaves no unsound record: it starts from none (40_cycle.md rule R106). -/
theorem step_faultSound {s t : State} (h : step s = .next t) : t.FaultSound := by
  by_cases hf : t.fault = none
  · exact State.faultSound_of_fault_none hf
  · have hrunning : s.halted = false := (s.enabled_iff.1 (enabled_of_step_next s t h)).2
    obtain ⟨k, rfl, hk⟩ := step_eq_raise_of_fault_ne_none h hf
    intro r hr
    rw [State.raise_fault] at hr
    cases hr
    exact ⟨hrunning, hk, rfl⟩

/-- A fresh engine over a canonical memory meets the invariant (10_state.md rule R33). -/
theorem State.fresh_inv (p : Params) {m : Memory} (hm : m.wf) (ins : List Word) : (State.fresh p m ins).Inv :=
  ⟨hm, State.faultSound_of_fault_none rfl⟩

end Sys2Proof.Machine
end

section
/-!
PROOFS. The invariant of 10_state.md section 11, and the statements of 40_cycle.md section 1 and 60_exceptions.md on
the step that faults.
-/

namespace Sys2Proof.Machine

/-- Settles O41: memory is as before or written by STO, and a record is the one that this step raised. -/
theorem everyStepKeepsTheInvariant : Obligations.EveryStepKeepsTheInvariant := by
  intro s t hinv h
  obtain ⟨hwf, -⟩ := s.inv_iff.1 hinv
  exact t.inv_iff.2 ⟨step_mem_wf h hwf, step_faultSound h⟩

/-- Settles O42: the empty list is canonical, and a fresh engine has no fault. -/
theorem resetMeetsTheInvariant : Obligations.ResetMeetsTheInvariant :=
  State.fresh_inv Params.default Memory.wf_nil []

/-- Settles O10: `exec` is total, and each of the two kinds of fault is the raise after the fetch. -/
theorem enabledStepCompletesOrRaises : Obligations.EnabledStepCompletesOrRaises := by
  intro s he
  obtain ⟨t, ht⟩ := step_next_of_enabled s he
  refine ⟨t, ht, step_fault_ne_none_iff ht, fun hill => ?_, fun hi hin => ?_⟩
  · rw [step_of_illegal s he hill] at ht
    cases ht
    exact State.raise_fault _ _
  · rw [step_of_inp_nil s he hi hin] at ht
    cases ht
    exact State.raise_fault _ _

/-- Settles O29: a step that faults is the fetch and the raise, which writes FAULT alone. -/
theorem faultingStepChangesFaultAlone : Obligations.FaultingStepChangesFaultAlone := by
  intro s t h hf
  obtain ⟨k, rfl, -⟩ := step_eq_raise_of_fault_ne_none h hf
  rfl

/-- Settles O40: no execute phase writes the parameters, and a record is one of the two kinds that are raised. -/
theorem stepKeepsParametersAndNeverRaisesAddressFault :
    Obligations.StepKeepsParametersAndNeverRaisesAddressFault := by
  intro s t h
  refine ⟨step_params h, fun r hr hkind => ?_⟩
  obtain ⟨-, hraised, -⟩ := step_faultSound h r hr
  rw [hkind] at hraised
  rcases hraised with hk | hk <;> cases hk

/-- Settles O26: the pop fails and the raise writes FAULT alone; the run's first step faults, and the loop stops. -/
theorem inpOnEmptyTrayRaisesUnderflow : Obligations.InpOnEmptyTrayRaisesUnderflow := by
  refine ⟨fun s hin => ⟨_, exec_inp_nil s hin, State.raise_acc _ _, State.raise_fault _ _, rfl⟩, ?_⟩
  intro s n he hi hin
  have hstep : step s.startRun = .next (s.startRun.fetch.raise .inputTrayUnderflow) :=
    step_of_inp_nil s.startRun he hi hin
  have hstate : runState (n + 1) s = s.startRun.fetch.raise .inputTrayUnderflow := by
    rw [runState, runLoop_succ_next n _ _ hstep]
    exact runLoop_faulted n (Option.some_ne_none _)
  exact congrArg State.runOutcome hstate

/-- Settles O28: the three illegal rows have one execute phase, the raise, which writes FAULT alone. -/
theorem illegalRowsRaiseInvalidOpcode : Obligations.IllegalRowsRaiseInvalidOpcode := by
  intro i x s hi
  have hill : i.illegal = true := by rcases hi with rfl | rfl | rfl <;> rfl
  exact ⟨_, exec_of_illegal i hill s, State.raise_fault _ _, State.raise_inTray _ _, State.raise_outTray _ _,
    fun _ => rfl, rfl⟩

/-- Settles O11: FAULT is tested first, then HALTED. -/
theorem stoppedEngineTakesNoStep : Obligations.StoppedEngineTakesNoStep :=
  ⟨step_faulted, step_halted⟩

/-- Settles O7: `exec` is total, and the rest is the fetch and the end of a step, written out. -/
theorem stepRunsDecodedInstruction : Obligations.StepRunsDecodedInstruction := by
  rintro s i he rfl -
  obtain ⟨hf, hh⟩ := s.enabled_iff.1 he
  obtain ⟨u, hu⟩ := exec_total s.nextInstr s.fetch
  refine ⟨⟨u, hu, (step_next_iff s _).2 ⟨hf, hh, u, hu, rfl⟩⟩, rfl, fun v => ?_⟩
  split
  · next hv => exact v.completeStep_of_none hv
  · next hv =>
    obtain ⟨r, hr⟩ := Option.ne_none_iff_exists'.1 hv
    exact v.completeStep_of_some r hr

end Sys2Proof.Machine
end

section
/-!
SUPPORT. What a step without a fault does to PC and to the input tray, and the two results of SUB together.
-/

namespace Sys2Proof.Machine

section
variable {s u : State} {i : Instr}

/-- A completed branch that is taken leaves PC at its operand (44_branch.md rule R129). -/
theorem ExecCompletes.pc_of_taken {a : Addr} (h : ExecCompletes s i u) (ht : s.takesBranch i a) : u.pc = a := by
  rcases ht with rfl | ⟨rfl, hacc⟩ | ⟨rfl, hneg⟩
  · cases h
    exact State.branchIf_pc_of_taken rfl
  · cases h
    exact State.branchIf_pc_of_taken ((zeroCondition_iff _).2 hacc)
  · cases h
    exact State.branchIf_pc_of_taken ((brpCondition_iff _ _).2 hneg)

/-- Whatever is no taken branch leaves PC as the fetch advanced it (rule R129, 40_cycle.md rule R102). -/
theorem ExecCompletes.pc_of_not_taken (h : ExecCompletes s i u) (hn : ∀ a, ¬ s.takesBranch i a) : u.pc = s.pc := by
  cases h with
  | br a => exact absurd (takesBranch_br s a) (hn a)
  | brz a => exact State.branchIf_pc_of_not_taken (mt (takesBranch_brz s a).2 (hn a))
  | brp a => exact State.branchIf_pc_of_not_taken (mt (takesBranch_brp s a).2 (hn a))
  | _ => rfl

/-- The input tray is changed by IN alone (20_memory.md rule R46). -/
theorem ExecCompletes.inTray_eq (h : ExecCompletes s i u) (hi : i ≠ .inp) : u.inTray = s.inTray := by
  cases h with
  | inp => exact absurd rfl hi
  | _ => rfl

/-- IN takes the front of the input tray into ACC (45_io.md rule R135). -/
theorem ExecCompletes.inTray_of_inp (h : ExecCompletes s .inp u) : s.inTray = u.acc :: u.inTray := by
  cases h with
  | inp v rest hv => exact hv

end

section
variable {s t : State} {a : Addr}

/-- PC after a step without a fault whose instruction is a taken branch. -/
theorem step_pc_of_taken (h : step s = .next t) (hf : t.fault = none) (ht : s.takesBranch s.nextInstr a) :
    t.pc = a := by
  obtain ⟨-, u, hu, rfl⟩ := (step_next_without_fault_iff s t).1 ⟨h, hf⟩
  exact hu.pc_of_taken (takesBranch_fetch_iff.2 ht)

/-- PC after every other step without a fault: the address after the fetched one (40_cycle.md rule R101). -/
theorem step_pc_of_not_taken (h : step s = .next t) (hf : t.fault = none)
    (hn : ∀ a, ¬ s.takesBranch s.nextInstr a) : t.pc.val = (s.pc.val + 1) % 100 := by
  obtain ⟨-, u, hu, rfl⟩ := (step_next_without_fault_iff s t).1 ⟨h, hf⟩
  have hpc : u.pc = nextAddr s.pc := hu.pc_of_not_taken fun a => mt takesBranch_fetch_iff.1 (hn a)
  exact congrArg Fin.val hpc

/-- The step of HLT (41_halt.md rule R116). -/
theorem step_hlt {x : Addr} (he : s.enabled = true) (hi : s.nextInstr = .hlt x) :
    step s = .next s.fetch.halt.countCycle :=
  step_eq_of_completes he (hi ▸ .hlt x)

/-- A BRZ is taken to its own operand alone, and only when ACC is 0. -/
theorem not_takesBranch_brz (hacc : s.acc ≠ 0) (b : Addr) : ¬ s.takesBranch (.brz a) b := by
  simp [State.takesBranch, hacc]

/-- A BRP is taken to its own operand alone, and only when its condition holds. -/
theorem not_takesBranch_brp (hneg : ¬ (s.params.brpPolarity = .nonNegative ↔ s.neg = false)) (b : Addr) :
    ¬ s.takesBranch (.brp a) b := by
  simp [State.takesBranch, hneg]

end

section
variable (acc m : Word)

/-- ACC after SUB is the difference mod 1000, with a borrow or without one (42_arithmetic.md rule R122). -/
theorem differenceWord_val_emod : ((differenceWord acc m).val : Int) = ((acc.val : Int) - m.val) % 1000 := by
  rcases lt_or_ge ((acc.val : Int) - m.val) 0 with hneg | hnonneg
  · rw [differenceWord_val_of_neg hneg, Int.add_emod_right]
  · rw [differenceWord_val_of_nonneg hnonneg]
    omega

/-- A borrow leaves no 0 in ACC (rule R121): `raw` is above -1000. -/
theorem one_le_differenceWord_of_borrowFlag (h : borrowFlag acc m = true) : 1 ≤ (differenceWord acc m).val := by
  have hlt : acc.val < m.val := (borrowFlag_iff acc m).1 h
  rw [differenceWord_val, if_pos hlt]
  omega

end

end Sys2Proof.Machine
end

section
/-!
PROOFS. The statements on the step without a fault: PC (10_state.md section 3), NEG and ACC after SUB (section 11), the
trays (20_memory.md section 4), a store and the next fetch (section 5), and the step of HLT (41_halt.md).
-/

namespace Sys2Proof.Machine

/-- Settles O9: PC is written by a taken branch alone, and each clause says whether the branch is taken. -/
theorem pcAfterStep : Obligations.PcAfterStep := by
  intro s t h hf
  refine ⟨fun a hi => ?br, fun a hi hacc => ?brzTaken, fun a hi hacc => ?brzNot, fun a hi hneg => ?brpTaken,
    fun a hi hneg => ?brpNot, fun hi => ?other⟩
  case br => exact step_pc_of_taken h hf (.inl hi)
  case brzTaken => exact step_pc_of_taken h hf (.inr (.inl ⟨hi, hacc⟩))
  case brzNot => exact step_pc_of_not_taken h hf fun b => hi ▸ not_takesBranch_brz hacc b
  case brpTaken => exact step_pc_of_taken h hf (.inr (.inr ⟨hi, hneg⟩))
  case brpNot => exact step_pc_of_not_taken h hf fun b => hi ▸ not_takesBranch_brp hneg b
  case other =>
    refine step_pc_of_not_taken h hf fun b hb => ?_
    obtain ⟨hbr, hbrz, hbrp⟩ := hi b
    rcases hb with hb | ⟨hb, -⟩ | ⟨hb, -⟩
    · exact hbr hb
    · exact hbrz hb
    · exact hbrp hb

/-- Settles O18: both results of SUB, by whether it borrows. -/
theorem subIsModularDifference : Obligations.SubIsModularDifference :=
  fun a s => ⟨_, exec_sub s a, differenceWord_val_emod _ _, one_le_differenceWord_of_borrowFlag _ _⟩

/-- Settles O32: SUB's borrow leaves no 0, and the other instructions named keep both values. -/
theorem negImpliesNonzeroUntilAccWritten : Obligations.NegImpliesNonzeroUntilAccWritten := by
  constructor
  · intro s t a h hi hneg
    obtain ⟨-, -, u, hu, rfl⟩ := (step_next_iff s t).1 h
    rw [hi, exec_sub] at hu
    cases hu
    rw [State.completeStep_neg] at hneg
    rw [State.completeStep_acc]
    exact one_le_differenceWord_of_borrowFlag _ _ hneg
  · intro s t h hf hi hin hbefore hneg
    obtain ⟨-, u, hu, rfl⟩ := (step_next_without_fault_iff s t).1 ⟨h, hf⟩
    have hacc : u.acc = s.acc := hu.acc_eq hi hin
    have hkept : u.neg = s.neg := hu.neg_eq fun a => (hi a).2.1
    rw [State.countCycle_acc, hacc]
    exact hbefore (hkept.symm.trans hneg)

/-- Settles O34: IN alone changes the input tray, OUT alone the output tray. -/
theorem traysAreTouchedOnlyByInAndOut : Obligations.TraysAreTouchedOnlyByInAndOut := by
  intro s t h hf
  obtain ⟨-, u, hu, rfl⟩ := (step_next_without_fault_iff s t).1 ⟨h, hf⟩
  refine ⟨fun hi => ?_, fun hi => hu.inTray_eq hi, fun hi => ?_, fun hi => ?_⟩
  · rw [hi] at hu
    exact hu.inTray_of_inp
  · rw [hi] at hu
    cases hu
    rfl
  · rcases hu.outTray_eq_or_append with hkept | ⟨hout, -⟩
    · exact hkept
    · exact absurd hout hi

/-- Settles O36: the next fetch reads the memory that STO wrote, and STO's own fetch came before the write. -/
theorem storeIsSeenByTheNextFetch : Obligations.StoreIsSeenByTheNextFetch := by
  intro s a he hi
  obtain ⟨hf, hh⟩ := s.enabled_iff.1 he
  have hstep : step s = .next (s.fetch.writeCell a s.acc).countCycle := step_eq_of_completes he (hi ▸ .sto a)
  refine ⟨_, hstep, hf, hh, ?_, ?_⟩
  · rintro rfl
    exact congrArg decode (Memory.read_write_same s.mem _ s.acc)
  · rintro rfl
    exact ⟨Memory.read_write_same s.mem _ s.acc, rfl, rfl⟩

/-- Settles O14: the word is HLT's encoding with its own number as the operand, and HLT's step is the fetch, HALTED and
the count. -/
theorem hltStepAdvancesPcAndCounts : Obligations.HltStepAdvancesPcAndCounts := by
  intro s he hw
  obtain ⟨x, hx⟩ : ∃ x : Addr, (s.mem.read s.pc).val = x.val := ⟨⟨_, Nat.lt_succ_of_le hw⟩, rfl⟩
  obtain ⟨hrow, -⟩ := decodeTableRowByRow (s.mem.read s.pc) x
  have hi : s.nextInstr = .hlt x := hrow hx
  exact ⟨_, step_hlt he hi, nextAddr_val s.pc, rfl, rfl⟩

end Sys2Proof.Machine
end

section
/-!
SUPPORT. An engine under another `cell_encoding`: every phase of the step does the same.
-/

namespace Sys2Proof.Machine

/-- The engine with another value of the OPEN parameter `cell_encoding` (20_memory.md rule R42). -/
def State.withCellEncoding (s : State) (e : CellEncoding) : State :=
  { s with params := { s.params with cellEncoding := e } }

/-- No execute phase reads `cell_encoding`. -/
theorem exec_withCellEncoding {i : Instr} {s u : State} (e : CellEncoding) (h : exec i s = .next u) :
    exec i (s.withCellEncoding e) = .next (u.withCellEncoding e) := by
  cases i with
  | inp =>
    cases hin : s.inTray with
    | nil =>
      rw [exec_inp_nil s hin] at h
      cases h
      exact exec_inp_nil (s.withCellEncoding e) hin
    | cons v rest =>
      rw [exec_inp_cons s v rest hin] at h
      cases h
      exact exec_inp_cons (s.withCellEncoding e) v rest hin
  | _ => cases h; rfl

theorem completeStep_withCellEncoding (s : State) (e : CellEncoding) :
    (s.withCellEncoding e).completeStep = s.completeStep.withCellEncoding e := by
  cases hf : s.fault with
  | none => rw [s.completeStep_of_none hf, (s.withCellEncoding e).completeStep_of_none hf]; rfl
  | some r => rw [s.completeStep_of_some r hf, (s.withCellEncoding e).completeStep_of_some r hf]

/-- No step reads `cell_encoding`. -/
theorem step_withCellEncoding {s t : State} (e : CellEncoding) (h : step s = .next t) :
    step (s.withCellEncoding e) = .next (t.withCellEncoding e) := by
  obtain ⟨hf, hh, u, hu, rfl⟩ := (step_next_iff s t).1 h
  exact (step_next_iff _ _).2 ⟨hf, hh, u.withCellEncoding e, exec_withCellEncoding e hu,
    (completeStep_withCellEncoding u e).symm⟩

end Sys2Proof.Machine
end

section
/-!
PROOFS. What a program cannot observe: `cell_encoding` (20_memory.md section 2), and IR and the fetch address before a
fetch (10_state.md section 4).
-/

namespace Sys2Proof.Machine

/-- Settles O39: the fetch, every execute phase and the count are the same under another `cell_encoding`. -/
theorem cellEncodingIsUnobservable : Obligations.CellEncodingIsUnobservable :=
  fun _ _ e => step_withCellEncoding e

/-- Settles O38: the fetch overwrites both, and it is the first phase of an enabled step. -/
theorem irIsNotReadBeforeAFetch : Obligations.IrIsNotReadBeforeAFetch := by
  intro s w a he
  obtain ⟨hf, hh⟩ := s.enabled_iff.1 he
  have hfetch : ({ s with ir := w, fetchAddr := a } : State).fetch = s.fetch := rfl
  rw [step_of_enabled s hf hh, step_of_enabled { s with ir := w, fetchAddr := a } hf hh, fetchExecute, fetchExecute,
    hfetch]

end Sys2Proof.Machine
end

section
/-!
SUPPORT. A canonical memory by its contents: its list holds exactly the mailboxes that do not read 000.
-/

namespace Sys2Proof.Machine

/-- Among rising addresses a listed mailbox is what its address reads. -/
theorem Memory.read_of_mem {m : Memory} (hm : m.Pairwise (fun x y => x.1 < y.1)) {a : Addr} {v : Word}
    (h : (a, v) ∈ m) : m.read a = v := by
  induction m with
  | nil => cases h
  | cons c rest ih =>
    obtain ⟨hfirst, hrest⟩ := List.pairwise_cons.1 hm
    rcases List.mem_cons.1 h with rfl | hmem
    · rw [Memory.read_cons, if_pos rfl]
    · rw [Memory.read_cons, if_neg (hfirst (a, v) hmem).ne]
      exact ih hrest hmem

/-- An address that does not read 000 is listed. -/
theorem Memory.mem_of_read_ne_unlisted {m : Memory} {a : Addr} (h : m.read a ≠ unlisted) : (a, m.read a) ∈ m := by
  induction m with
  | nil => exact absurd rfl h
  | cons c rest ih =>
    obtain ⟨b, w⟩ := c
    rw [Memory.read_cons] at h ⊢
    by_cases hb : b = a
    · rw [if_pos hb, hb]
      exact List.mem_cons_self
    · rw [if_neg hb] at h ⊢
      exact List.mem_cons_of_mem _ (ih h)

/-- The mailboxes of a canonical memory (20_memory.md rule R40). -/
theorem Memory.mem_iff_read {m : Memory} (hm : m.wf) (a : Addr) (v : Word) :
    (a, v) ∈ m ↔ v ≠ unlisted ∧ m.read a = v := by
  obtain ⟨hrising, hlisted⟩ := (Memory.wf_iff m).1 hm
  constructor
  · exact fun h => ⟨hlisted (a, v) h, Memory.read_of_mem hrising h⟩
  · rintro ⟨hv, rfl⟩
    exact Memory.mem_of_read_ne_unlisted hv

/-- Rising addresses list no mailbox twice. -/
theorem Memory.nodup_of_wf {m : Memory} (hm : m.wf) : m.Nodup :=
  hm.1.imp fun hlt heq => hlt.ne (congrArg Prod.fst heq)

end Sys2Proof.Machine
end

section
/-!
PROOFS. The statement of 20_memory.md section 1 on canonical memories.
-/

namespace Sys2Proof.Machine

/-- Settles O43: the two lists hold the same mailboxes, each once, and both in rising order. -/
theorem canonicalMemoriesAreEqualWhenTheyReadAlike : Obligations.CanonicalMemoriesAreEqualWhenTheyReadAlike := by
  intro m m' hm hm' hread
  have hperm : m.Perm m' := by
    rw [List.perm_ext_iff_of_nodup (Memory.nodup_of_wf hm) (Memory.nodup_of_wf hm')]
    rintro ⟨a, v⟩
    rw [Memory.mem_iff_read hm, Memory.mem_iff_read hm', hread]
  exact hperm.eq_of_pairwise (fun _ _ _ _ hlt hgt => absurd hgt hlt.not_gt) hm.1 hm'.1

end Sys2Proof.Machine
end

section
/-!
SUPPORT. What the loader accepts, from both sides; and what the host reads back.
-/

namespace Sys2Proof.Machine

/-- A capacity admits the counts up to it, and an unbounded one every count (00_scope.md rule R7). -/
theorem capacityAdmits_iff (capacity : Option Nat) (count : Nat) :
    capacityAdmits capacity count = true ↔ ∀ c, capacity = some c → count ≤ c := by
  cases capacity with
  | none => simp [capacityAdmits]
  | some c => simp [capacityAdmits]

/-- The numbers of words are read as those words. -/
theorem wordsOfNumbers_map_val (ws : List Word) : wordsOfNumbers (ws.map Fin.val) = .ok ws := by
  induction ws with
  | nil => rfl
  | cons w rest ih =>
    have hw : wordOfNumber w.val = .ok w := (wordOfNumber_ok_iff w.val w).2 rfl
    rw [List.map_cons, wordsOfNumbers, hw, ih]

/-- Exactly the lists of numbers in 0..999 are lists of words (rules R163, R169). -/
theorem exists_wordsOfNumbers_iff (ns : List Nat) : (∃ ws, wordsOfNumbers ns = .ok ws) ↔ ∀ v ∈ ns, v ≤ 999 := by
  constructor
  · rintro ⟨ws, h⟩ v hv
    rw [← wordsOfNumbers_val ns ws h] at hv
    obtain ⟨w, -, rfl⟩ := List.mem_map.1 hv
    omega
  · intro h
    lift ns to List Word using fun v hv => Nat.lt_succ_of_le (h v hv)
    exact ⟨ns, wordsOfNumbers_map_val ns⟩

theorem wordsOfNumbers_length {ns : List Nat} {ws : List Word} (h : wordsOfNumbers ns = .ok ws) :
    ws.length = ns.length := by
  rw [← wordsOfNumbers_val ns ws h, List.length_map]

/-- After a fault the host reads back nothing (70_reset_and_hazards.md rule R170). -/
theorem State.readBack_of_fault {s : State} {r : FaultRecord} (h : s.fault = some r) : s.readBack = none := by
  rw [State.readBack, h]

/-- Of an engine without a fault the host reads back the whole state (rule R170). -/
theorem State.readBack_of_fault_none {s : State} (h : s.fault = none) :
    s.readBack = some
      { memory := s.mem.toImage, pc := s.pc, acc := s.acc, neg := s.neg,
        inputsLeft := s.inTray, outputs := s.outTray } := by
  rw [State.readBack, h]

end Sys2Proof.Machine
end

section
/-!
PROOFS. The statements of 70_reset_and_hazards.md sections 1, 2 and 4: the loader, the state it gives, the values after
reset and the read-back.
-/

namespace Sys2Proof.Machine

/-- Settles O45: each test of the loader is one clause. -/
theorem loaderAcceptsExactlyProperImages : Obligations.LoaderAcceptsExactlyProperImages := by
  intro p image inputs
  constructor
  · rintro ⟨s, h⟩
    obtain ⟨hlen, img, ins, himg, hins, hcap, -⟩ := (hostReset_ok_iff p image inputs s).1 h
    rw [wordsOfNumbers_length hins] at hcap
    exact ⟨hlen, (exists_wordsOfNumbers_iff image).1 ⟨img, himg⟩, (exists_wordsOfNumbers_iff inputs).1 ⟨ins, hins⟩,
      (capacityAdmits_iff _ _).1 hcap⟩
  · rintro ⟨hlen, himage, hinputs, hcap⟩
    obtain ⟨img, himg⟩ := (exists_wordsOfNumbers_iff image).2 himage
    obtain ⟨ins, hins⟩ := (exists_wordsOfNumbers_iff inputs).2 hinputs
    rw [← wordsOfNumbers_length hins] at hcap
    exact ⟨_, (hostReset_ok_iff p image inputs _).2
      ⟨hlen, img, ins, himg, hins, (capacityAdmits_iff _ _).2 hcap, rfl⟩⟩

/-- Settles O44: an accepted reset is the fresh engine over the loaded image, which is canonical. -/
theorem resetLoadsImageAndInputs : Obligations.ResetLoadsImageAndInputs := by
  intro p image inputs s h
  have hmem := hostReset_mem p image inputs s h
  obtain ⟨hlen, img, ins, -, hins, -, rfl⟩ := (hostReset_ok_iff p image inputs s).1 h
  exact ⟨hlen, hmem, wordsOfNumbers_val inputs ins hins, rfl, rfl, rfl, rfl, rfl, rfl, rfl, rfl,
    State.fresh_inv p (Memory.wf_ofImage img) ins⟩

/-- Settles O46: the fields of a fresh engine under the default parameters. -/
theorem resetValues : Obligations.ResetValues :=
  ⟨rfl, rfl, rfl, rfl, rfl, rfl, rfl, rfl, rfl⟩

/-- Settles O53: the read-back asks for FAULT alone, and memory is read cell by cell. -/
theorem readBackAfterRun : Obligations.ReadBackAfterRun := by
  refine fun s => ⟨fun r h => ⟨State.readBack_of_fault h, h⟩, fun h => ⟨_, State.readBack_of_fault_none h, ?_⟩⟩
  exact ⟨s.mem.toImage_length, s.mem.toImage_getElem?, rfl, rfl, rfl, rfl, rfl⟩

end Sys2Proof.Machine
end

section
/-!
SUPPORT. How a run ends: the outcome by the engine it leaves, the bounds on CYCLES, and the record of a fault.
-/

namespace Sys2Proof.Machine

section
variable {s : State}

/-- `Fault` is the outcome of the faulted engines alone (40_cycle.md rule R107). -/
theorem State.runOutcome_eq_fault_iff (r : FaultRecord) : s.runOutcome = .fault r ↔ s.fault = some r := by
  unfold State.runOutcome
  cases hf : s.fault with
  | some r' => simp
  | none => cases hh : s.halted <;> simp

/-- `Halted` is the outcome of the halted engines without a fault, and of no others (rules R107, R108). -/
theorem State.runOutcome_eq_halted_iff (n : Nat) :
    s.runOutcome = .halted n ↔ s.fault = none ∧ s.halted = true ∧ s.cycles = n := by
  unfold State.runOutcome
  cases hf : s.fault with
  | some r => simp
  | none => cases hh : s.halted <;> simp

end

/-- What every step keeps, a faulting one too, the loop keeps. -/
theorem runLoop_preserves (P : State → Prop) (hP : ∀ s t, step s = .next t → P s → P t) (n : Nat) (s : State)
    (hs : P s) : P (runLoop n s) := by
  induction n generalizing s with
  | zero => exact hs
  | succ n ih =>
    cases he : s.enabled with
    | false => rwa [runLoop_stopped _ s he]
    | true =>
      obtain ⟨t, ht⟩ := step_next_of_enabled s he
      rw [runLoop_succ_next n s t ht]
      exact ih t (hP s t ht hs)

/-- A loop that starts with no unsound record ends with none. -/
theorem runLoop_faultSound (n : Nat) {s : State} (h : s.FaultSound) : (runLoop n s).FaultSound :=
  runLoop_preserves State.FaultSound (fun _ _ hstep _ => step_faultSound hstep) n s h

/-- No step counts back. -/
theorem step_cycles_ge {s t : State} (h : step s = .next t) : s.cycles ≤ t.cycles := by
  by_cases hf : t.fault = none
  · rw [step_cycles_of_fault_none h hf]
    omega
  · rw [step_cycles_of_fault_ne_none h hf]

theorem runLoop_cycles_ge (n : Nat) (s : State) : s.cycles ≤ (runLoop n s).cycles :=
  runLoop_preserves (s.cycles ≤ ·.cycles) (fun _ _ hstep hx => hx.trans (step_cycles_ge hstep)) n s le_rfl

/-- The loop counts at most its budget, and less when it ends in a fault: the faulting step is not counted
(rules R107, R113). -/
theorem runLoop_cycles_le (n : Nat) {s : State} (hs : s.fault = none) :
    (runLoop n s).cycles ≤ s.cycles + n ∧ ((runLoop n s).fault ≠ none → (runLoop n s).cycles < s.cycles + n) := by
  induction n generalizing s with
  | zero => exact ⟨le_rfl, fun hf => absurd hs hf⟩
  | succ n ih =>
    cases he : s.enabled with
    | false =>
      rw [runLoop_stopped _ s he]
      exact ⟨Nat.le_add_right _ _, fun hf => absurd hs hf⟩
    | true =>
      obtain ⟨t, ht⟩ := step_next_of_enabled s he
      rw [runLoop_succ_next n s t ht]
      by_cases htf : t.fault = none
      · have hcount : t.cycles = s.cycles + 1 := step_cycles_of_fault_none ht htf
        obtain ⟨hle, hlt⟩ := ih htf
        rw [hcount] at hle hlt
        exact ⟨by omega, fun hf => by have := hlt hf; omega⟩
      · have hcount : t.cycles = s.cycles := step_cycles_of_fault_ne_none ht htf
        rw [runLoop_faulted n htf]
        exact ⟨by omega, fun _ => by omega⟩

/-- An enabled engine that the loop halts has counted a step at least: the HLT (rule R108). -/
theorem runLoop_cycles_gt_of_halted (n : Nat) {s : State} (he : s.enabled = true) (hf : (runLoop n s).fault = none)
    (hh : (runLoop n s).halted = true) : s.cycles < (runLoop n s).cycles := by
  cases n with
  | zero => exact absurd ((s.enabled_iff.1 he).2.symm.trans hh) Bool.false_ne_true
  | succ n =>
    obtain ⟨t, ht⟩ := step_next_of_enabled s he
    rw [runLoop_succ_next n s t ht] at hf ⊢
    have hcount : t.cycles = s.cycles + 1 := step_cycles_of_fault_none ht (fault_eq_none_of_runLoop n t hf)
    have hrest : t.cycles ≤ (runLoop n t).cycles := runLoop_cycles_ge n t
    omega

theorem runLoop_one_of_step {s t : State} (h : step s = .next t) : runLoop 1 s = t :=
  runLoop_succ_next 0 s t h

end Sys2Proof.Machine
end

section
/-!
SUPPORT. An engine with its count set anew: its steps and its loops are the same but for the count.
-/

namespace Sys2Proof.Machine

/-- The engine with CYCLES at `c`, as at the start of a run when `c` is 0. -/
def State.setCycles (s : State) (c : Nat) : State :=
  { s with cycles := c }

theorem State.startRun_eq_setCycles (s : State) : s.startRun = s.setCycles 0 := rfl

/-- A completed execute phase does not read CYCLES. -/
theorem ExecCompletes.of_setCycles {s u : State} {i : Instr} (h : ExecCompletes s i u) (c : Nat) :
    ExecCompletes (s.setCycles c) i (u.setCycles c) := by
  cases h with
  | hlt x => exact .hlt x
  | add a => exact .add a
  | sub a => exact .sub a
  | sto a => exact .sto a
  | lda a => exact .lda a
  | br a => exact .br a
  | brz a => exact .brz a
  | brp a => exact .brp a
  | inp v rest hv => exact .inp v rest hv
  | out => exact .out

/-- A step without a fault from a count set anew is the same step, one cycle after that count. -/
theorem step_setCycles_of_fault_none {s t : State} (c : Nat) (h : step s = .next t) (hf : t.fault = none) :
    step (s.setCycles c) = .next (t.setCycles (c + 1)) := by
  obtain ⟨he, u, hu, rfl⟩ := (step_next_without_fault_iff s t).1 ⟨h, hf⟩
  have hstep : step (s.setCycles c) = .next (u.setCycles c).countCycle := step_eq_of_completes he (hu.of_setCycles c)
  exact hstep

/-- A step that faults does so from a count set anew too; the records differ in the cycle number alone. -/
theorem step_setCycles_of_fault_ne_none {s t : State} (c : Nat) (h : step s = .next t) (hf : t.fault ≠ none) :
    ∃ t', step (s.setCycles c) = .next t' ∧ t'.fault ≠ none ∧ t'.withoutCount = t.withoutCount := by
  have he : (s.setCycles c).enabled = true := enabled_of_step_next s t h
  rcases step_fault_cases h with hnone | ⟨rfl, hill⟩ | ⟨rfl, hi, hin⟩
  · exact absurd hnone hf
  · exact ⟨_, step_of_illegal _ he hill, Option.some_ne_none _, rfl⟩
  · exact ⟨_, step_of_inp_nil _ he hi hin, Option.some_ne_none _, rfl⟩

/-- A loop from a count set anew reaches the same state but for the count. -/
theorem runLoop_setCycles_withoutCount (n : Nat) (s : State) (c : Nat) :
    (runLoop n (s.setCycles c)).withoutCount = (runLoop n s).withoutCount := by
  induction n generalizing s c with
  | zero => rfl
  | succ n ih =>
    cases he : s.enabled with
    | false =>
      rw [runLoop_stopped _ s he, runLoop_stopped _ (s.setCycles c) he]
      rfl
    | true =>
      obtain ⟨t, ht⟩ := step_next_of_enabled s he
      rw [runLoop_succ_next n s t ht]
      by_cases hf : t.fault = none
      · rw [runLoop_succ_next n _ _ (step_setCycles_of_fault_none c ht hf)]
        exact ih t (c + 1)
      · obtain ⟨t', ht', hf', hsame⟩ := step_setCycles_of_fault_ne_none c ht hf
        rw [runLoop_succ_next n _ _ ht', runLoop_faulted n hf', runLoop_faulted n hf]
        exact hsame

end Sys2Proof.Machine
end

section
/-!
PROOFS. The statements of 40_cycle.md section 2: the outcomes of a run (rule R108), HLT on the last step (rule R110), two
runs in a row (rule R111), and a run of one step or of a stopped engine.
-/

namespace Sys2Proof.Machine

/-- Settles O48: the outcome by the engine that the loop leaves, and the bounds on its count from 0. -/
theorem runOutcomesSayHowItEnded : Obligations.RunOutcomesSayHowItEnded := by
  intro s m he
  have hstart : s.startRun.fault = none := (s.enabled_iff.1 he).1
  obtain ⟨hle, hlt⟩ : (runState m s).cycles ≤ 0 + m ∧ ((runState m s).fault ≠ none → (runState m s).cycles < 0 + m) :=
    runLoop_cycles_le m hstart
  rw [Nat.zero_add] at hle hlt
  refine ⟨fun n h => ?halted, fun n h => ?budget, fun r h => ?fault⟩
  case halted =>
    obtain ⟨hf, hh, rfl⟩ := (State.runOutcome_eq_halted_iff n).1 h
    have hpos : 0 < (runState m s).cycles := runLoop_cycles_gt_of_halted (s := s.startRun) m he hf hh
    exact ⟨hpos, hle, hh, rfl⟩
  case budget =>
    obtain ⟨henabled, hn⟩ := (run_eq_budgetExceeded_iff m n s).1 h
    exact ⟨hn, henabled, runState_cycles_of_enabled m s henabled⟩
  case fault =>
    have hf : (runState m s).fault = some r := (State.runOutcome_eq_fault_iff r).1 h
    have hsound : (runState m s).FaultSound := runLoop_faultSound m (State.faultSound_of_fault_none hstart)
    obtain ⟨-, hkind, hcycle⟩ := hsound r hf
    have hbound : (runState m s).cycles < m := hlt (hf ▸ Option.some_ne_none r)
    exact ⟨by omega, by omega, hf, hkind, State.readBack_of_fault hf⟩

/-- Settles O50: the run of the longer budget is the first one and the step of HLT, which is counted. -/
theorem hltOnTheLastBudgetedStepHalts : Obligations.HltOnTheLastBudgetedStepHalts := by
  intro s m x _ h hi
  obtain ⟨he, -⟩ := (run_eq_budgetExceeded_iff m m s).1 h
  obtain ⟨hf, -⟩ := (runState m s).enabled_iff.1 he
  have hstate : runState (m + 1) s = (runState m s).fetch.halt.countCycle :=
    (runLoop_add m 1 s.startRun).trans (runLoop_one_of_step (step_hlt he hi))
  have hcount : (runState m s).cycles = m := runState_cycles_of_enabled m s he
  refine (State.runOutcome_eq_halted_iff (m + 1)).2 ?_
  rw [hstate]
  exact ⟨hf, rfl, congrArg (· + 1) hcount⟩

/-- Settles O51: the second run is the rest of the joint loop with its count set anew. -/
theorem runsCompose : Obligations.RunsCompose := by
  intro s m n _
  calc (runState n (runState m s)).withoutCount
      = (runLoop n ((runState m s).setCycles 0)).withoutCount := by rw [runState, State.startRun_eq_setCycles]
    _ = (runLoop n (runState m s)).withoutCount := runLoop_setCycles_withoutCount n _ 0
    _ = (runState (m + n) s).withoutCount := by rw [runState, runState, runLoop_add]

/-- Settles O52: the loop of budget 1 is its one step, and a stopped engine is left at count 0. -/
theorem runOneIsOneStep : Obligations.RunOneIsOneStep := by
  refine ⟨fun s t h => runLoop_one_of_step h, fun s n hf hh => ?_, fun s n r hf => ?_⟩
  · have hstopped : s.startRun.enabled = false := by simp [State.enabled, hh]
    refine (State.runOutcome_eq_halted_iff 0).2 ?_
    rw [runState, runLoop_stopped n _ hstopped]
    exact ⟨hf, hh, rfl⟩
  · refine (State.runOutcome_eq_fault_iff r).2 ?_
    rw [runState, runLoop_faulted n (s := s.startRun) (hf ▸ Option.some_ne_none r)]
    exact hf

end Sys2Proof.Machine
end

section
/-!
SUPPORT. A one-operand line with a literal, from what pass 2 accepted; and the harness's verdict on a halted run.
-/

namespace Sys2Proof.Machine

/-- All that a one-operand line can encode to: its opcode joined with the address of its operand (30_encoding.md
rules R79, R80). -/
theorem encodeClass_oneOperand_ok {table : SymbolTable} {op : Fin 10} {l : Token} {w : Word}
    (h : encodeClass table (.oneOperand op) (some l) = .ok w) :
    ∃ a, resolveOperand table l = .ok a ∧ w = wordOf op a := by
  rw [encodeClass] at h
  split at h
  · next a ha => cases h; exact ⟨a, ha, rfl⟩
  · cases h

/-- A literal operand resolves to its own value, which is an address then (rule R80, decision D19). -/
theorem resolveOperand_literal_ok {table : SymbolTable} {l : Token} {v : Nat} {a : Addr} (hl : literalValue l = some v)
    (h : resolveOperand table l = .ok a) : a.val = v := by
  rw [resolveOperand, hl] at h
  dsimp only at h
  split at h
  · cases h; rfl
  · cases h

/-- With an expected result, the last output is compared as a number (70_reset_and_hazards.md rule R174). -/
theorem haltedVerdict_of_getLast? {outs : List Word} {v : Word} (e : Word) (h : outs.getLast? = some v) :
    haltedVerdict (some e) outs = if v.val = e.val then .pass else .resultMismatch (.lastOutput v) := by
  simp only [haltedVerdict, h]

end Sys2Proof.Machine
end

section
/-!
PROOFS. The statements of 30_encoding.md section 5 on literal operands, and of 70_reset_and_hazards.md section 5.
-/

namespace Sys2Proof.Machine

/-- Settles O56: pass 2 accepted the line, so its operand is an address and its word is the opcode joined with it. -/
theorem literalOperandLinesEncode : Obligations.LiteralOperandLinesEncode := by
  intro source image k v p t l m op h hk hmn ht hclass hoper hlit
  obtain ⟨table, ws, -, -, -, -, hwords⟩ := assemble_ok_words source image h
  obtain ⟨w, hw, hwk⟩ := hwords k p hk
  rw [encodeLine_eq_encodeClass table p t m hmn ht (extra_eq_nil_of_encodeLine_ok table p w hw), hclass, hoper] at hw
  obtain ⟨a, hres, rfl⟩ := encodeClass_oneOperand_ok hw
  have ha : a.val = v := resolveOperand_literal_ok hlit hres
  have hdecode (op' : Fin 10) (hop : classOf m = .oneOperand op') : decode (wordOf op a) = decode (wordOf op' a) := by
    rw [MnemonicClass.oneOperand.inj (hclass.symm.trans hop)]
  refine ⟨a, wordOf op a, ha, hwk, by rw [wordOf_val, ha], fun hm => ?add, fun hm => ?sub, fun hm => ?sto,
    fun hm => ?lda, fun hm => ?br, fun hm => ?brz, fun hm => ?brp⟩
  case add => exact (hdecode 1 (hm ▸ rfl)).trans (decode_wordOf 1 a)
  case sub => exact (hdecode 2 (hm ▸ rfl)).trans (decode_wordOf 2 a)
  case sto => exact (hdecode 3 (by rcases hm with rfl | rfl <;> rfl)).trans (decode_wordOf 3 a)
  case lda => exact (hdecode 5 (hm ▸ rfl)).trans (decode_wordOf 5 a)
  case br => exact (hdecode 6 (hm ▸ rfl)).trans (decode_wordOf 6 a)
  case brz => exact (hdecode 7 (hm ▸ rfl)).trans (decode_wordOf 7 a)
  case brp => exact (hdecode 8 (hm ▸ rfl)).trans (decode_wordOf 8 a)

/-- Settles O59: a halted run is judged by its last output, if a result is expected, the other outcomes by no output. -/
theorem harnessVerdicts : Obligations.HarnessVerdicts := by
  refine ⟨fun n outs => rfl, fun n e outs => ?passes, fun n e v outs hlast hne => ?differs, fun n e => rfl,
    fun o n outs => rfl, fun o r outs => rfl⟩
  case passes =>
    change haltedVerdict (some e) outs = .pass ↔ _
    cases hlast : outs.getLast? with
    | none => simp [haltedVerdict, hlast]
    | some v => simp [haltedVerdict_of_getLast? e hlast]
  case differs => exact (haltedVerdict_of_getLast? e hlast).trans (if_neg hne)

end Sys2Proof.Machine
end
